-- ==== Sys2Proof/Word.lean ====
section
/-! DEFINITION. The two word types of the Popola 8-bit core: the byte and the 16-bit address.
Spec: 00_scope R5 (WORD_BITS = 8, ADDR_BITS = 16), R6. -/

namespace Sys2Proof

/-- An 8-bit unsigned value: a register, a byte of memory, a byte of the image (R5, R13). -/
abbrev Byte := BitVec 8

/-- A 16-bit unsigned value: a data address, a code address, SP, XY (R5, R17, R26). -/
abbrev Addr := BitVec 16

end Sys2Proof
end

