-- ==== Sys2Proof/Config.lean ====
section
/-! DEFINITION. The implementation parameters of 00_scope R5 that are one constant of the machine, and the free
values of the model: constants with no body, of which no proof can know the value.
The parameters OPCODE_MAP and REG_ID are the structure CodeMap of Syntax.lean; IO_INTERCEPT is a field of State;
REG_RESET is an argument of portReset (Machine/Port.lean). -/

namespace Sys2Proof.Config

/-- ENTRY: pc after reset (R5, R20; decision D7). -/
abbrev entry : Addr := 0x0000#16

/-- IMAGE_MAX: the largest program image in bytes, and the size of the 16-bit code space (R5, R31; decision D8). -/
abbrev imageMax : Nat := 65536

/-- MEM_SIZE: the bytes of data memory (R5, R29). -/
abbrev memSize : Nat := 65536

/-- MMIO_BASE: first address of the I/O window. A constant with the spec's default (R5, R48; conflict C4; log 10). -/
abbrev mmioBase : Addr := 0x0FF0#16

/-- SP_HI_ADDR: the stack pointer's high byte, window offset 0 (R5, R26). -/
abbrev spHiAddr : Addr := mmioBase

/-- SP_LO_ADDR: the stack pointer's low byte, window offset 1 (R5, R26). -/
abbrev spLoAddr : Addr := mmioBase + 1#16

/-- IO_FIRST: the first host-reserved I/O byte, window offset 2 (R5, R27). -/
abbrev ioFirst : Addr := mmioBase + 2#16

/-- IO_LAST: the last host-reserved I/O byte, window offset 15 (R5, R27). -/
abbrev ioLast : Addr := mmioBase + 15#16

/-- VRAM_BASE: OPEN, "no rule of the core depends on" it (R49; decision D22; log 9). -/
opaque vramBase : Addr

/-- VRAM_SIZE: OPEN, "about 4096" (R48, R49; decision D22; log 9). -/
opaque vramSize : Nat

/-- FREE VALUE. The byte the host answers to the k-th intercepted read (R47, IO_INTERCEPT = oracle: "returns a draw (any
byte)"; log 3). Applied to the counter State.ioDraws. -/
opaque ioDraw : Nat → Byte

end Sys2Proof.Config
end

