-- ==== Sys2Proof/Syntax.lean ====
section
/-! DEFINITION. The instructions of the Popola 8-bit core as syntax: the registers, the 35 rows of the opcode map
(30_encoding R61, opcode_table.json) as one constructor of Instr each, the operand fields and formats (R58, R60), and
the parameter CodeMap (R71). Addressing forms: reg, imm, ind (absolute address), idx (XY plus an unsigned offset). -/

namespace Sys2Proof

/-- The five general registers (10_state R13). -/
inductive Reg where
  | A | B | C | X | Y
deriving DecidableEq, Repr

/-- The registers in the order the spec lists them (R13, R59). -/
def Reg.all : List Reg := [.A, .B, .C, .X, .Y]

/-- A decoded instruction: one constructor per row of the opcode map (R61), with its operand fields (R58). -/
inductive Instr where
  /-- NOP (R130). -/
  | nop
  /-- LD r, r2 (R86). -/
  | ldReg (r r2 : Reg)
  /-- LD r, n (R87). -/
  | ldImm (r : Reg) (n : Byte)
  /-- LD r, #a (R88). -/
  | ldInd (r : Reg) (addr : Addr)
  /-- LD r, XY+N (R89). -/
  | ldIdx (r : Reg) (off : Byte)
  /-- ST r, r2: r is the source, r2 the destination (R90). -/
  | stReg (r r2 : Reg)
  /-- ST r, #a (R91). -/
  | stInd (r : Reg) (addr : Addr)
  /-- ST r, XY+N (R92). -/
  | stIdx (r : Reg) (off : Byte)
  /-- ADD r (R96). -/
  | addReg (r : Reg)
  /-- ADD n (R97). -/
  | addImm (n : Byte)
  /-- ADD #a (R98). -/
  | addInd (addr : Addr)
  /-- ADD XY+N (R99). -/
  | addIdx (off : Byte)
  /-- SUB r (R100). -/
  | subReg (r : Reg)
  /-- SUB n (R101). -/
  | subImm (n : Byte)
  /-- SUB #a (R102). -/
  | subInd (addr : Addr)
  /-- SUB XY+N (R103). -/
  | subIdx (off : Byte)
  /-- CMP r (R108). -/
  | cmpReg (r : Reg)
  /-- CMP n (R109). -/
  | cmpImm (n : Byte)
  /-- CMP #a (R110). -/
  | cmpInd (addr : Addr)
  /-- CMP XY+N (R111). -/
  | cmpIdx (off : Byte)
  /-- INC (R104). -/
  | inc
  /-- DEC (R105). -/
  | dec
  /-- JMP l (R114). -/
  | jmp (tgt : Addr)
  /-- JC l (R115). -/
  | jc (tgt : Addr)
  /-- JNC l (R116). -/
  | jnc (tgt : Addr)
  /-- JP l (R117): jump if F.P = 1, not "jump if plus" (conflict C3). -/
  | jp (tgt : Addr)
  /-- JNP l (R118). -/
  | jnp (tgt : Addr)
  /-- JZ l (R119). -/
  | jz (tgt : Addr)
  /-- JNZ l (R120). -/
  | jnz (tgt : Addr)
  /-- JS l (R121). -/
  | js (tgt : Addr)
  /-- JNS l (R122). -/
  | jns (tgt : Addr)
  /-- CALL l (R123). -/
  | call (tgt : Addr)
  /-- RET (R124). -/
  | ret
  /-- PUSH r (R127). -/
  | push (r : Reg)
  /-- POP r (R128). -/
  | pop (r : Reg)
deriving DecidableEq, Repr

/-- A (mnemonic, form) pair: a row of the opcode map without its operands (R61). -/
inductive Op where
  | nop
  | ldReg | ldImm | ldInd | ldIdx
  | stReg | stInd | stIdx
  | addReg | addImm | addInd | addIdx
  | subReg | subImm | subInd | subIdx
  | cmpReg | cmpImm | cmpInd | cmpIdx
  | inc | dec
  | jmp | jc | jnc | jp | jnp | jz | jnz | js | jns
  | call | ret | push | pop
deriving DecidableEq, Repr

/-- The 35 (mnemonic, form) pairs, in the order of the opcode map (R61). -/
def Op.all : List Op :=
  [.nop, .ldReg, .ldImm, .ldInd, .ldIdx, .stReg, .stInd, .stIdx] ++
  [.addReg, .addImm, .addInd, .addIdx, .subReg, .subImm, .subInd, .subIdx] ++
  [.cmpReg, .cmpImm, .cmpInd, .cmpIdx, .inc, .dec] ++
  [.jmp, .jc, .jnc, .jp, .jnp, .jz, .jnz, .js, .jns, .call, .ret, .push, .pop]

/-- The (mnemonic, form) pair of an instruction. -/
def Instr.op : Instr → Op
  | .nop => .nop
  | .ldReg _ _ => .ldReg
  | .ldImm _ _ => .ldImm
  | .ldInd _ _ => .ldInd
  | .ldIdx _ _ => .ldIdx
  | .stReg _ _ => .stReg
  | .stInd _ _ => .stInd
  | .stIdx _ _ => .stIdx
  | .addReg _ => .addReg
  | .addImm _ => .addImm
  | .addInd _ => .addInd
  | .addIdx _ => .addIdx
  | .subReg _ => .subReg
  | .subImm _ => .subImm
  | .subInd _ => .subInd
  | .subIdx _ => .subIdx
  | .cmpReg _ => .cmpReg
  | .cmpImm _ => .cmpImm
  | .cmpInd _ => .cmpInd
  | .cmpIdx _ => .cmpIdx
  | .inc => .inc
  | .dec => .dec
  | .jmp _ => .jmp
  | .jc _ => .jc
  | .jnc _ => .jnc
  | .jp _ => .jp
  | .jnp _ => .jnp
  | .jz _ => .jz
  | .jnz _ => .jnz
  | .js _ => .js
  | .jns _ => .jns
  | .call _ => .call
  | .ret => .ret
  | .push _ => .push
  | .pop _ => .pop

/-- The operand field kinds (R58). -/
inductive Field where
  | reg | imm8 | addr16 | off8 | tgt16
deriving DecidableEq, Repr

/-- The bytes a field takes (R58). -/
def Field.width : Field → Nat
  | .reg => 1
  | .imm8 => 1
  | .addr16 => 2
  | .off8 => 1
  | .tgt16 => 2

/-- How many values a field may take: 0 up to this number, exclusive (R58, R59, R76). -/
def Field.limit : Field → Nat
  | .reg => 5
  | .imm8 => 256
  | .addr16 => 65536
  | .off8 => 256
  | .tgt16 => 65536

/-- The ten formats (R60). -/
inductive Format where
  | Z | R | I | M | X | L | RR | RI | RM | RX
deriving DecidableEq, Repr

/-- The operand fields of a format, in byte order after the opcode byte (R60). -/
def Format.fields : Format → List Field
  | .Z => []
  | .R => [.reg]
  | .I => [.imm8]
  | .M => [.addr16]
  | .X => [.off8]
  | .L => [.tgt16]
  | .RR => [.reg, .reg]
  | .RI => [.reg, .imm8]
  | .RM => [.reg, .addr16]
  | .RX => [.reg, .off8]

/-- The length in bytes of a format: the opcode byte plus the width of each field (R60). -/
def Format.length (f : Format) : Nat := 1 + (f.fields.map Field.width).sum

/-- The format of a row of the opcode map (R60, R61). -/
def Op.format : Op → Format
  | .nop | .inc | .dec | .ret => .Z
  | .addReg | .subReg | .cmpReg | .push | .pop => .R
  | .addImm | .subImm | .cmpImm => .I
  | .addInd | .subInd | .cmpInd => .M
  | .addIdx | .subIdx | .cmpIdx => .X
  | .jmp | .jc | .jnc | .jp | .jnp | .jz | .jnz | .js | .jns | .call => .L
  | .ldReg | .stReg => .RR
  | .ldImm => .RI
  | .ldInd | .stInd => .RM
  | .ldIdx | .stIdx => .RX

/-- OPCODE_MAP and REG_ID (R5, R71): the opcode byte of each (mnemonic, form) pair and the id byte of each register.
The semantics never looks at it; only decoding, encoding and the assembler do. The default is in Decode.lean. -/
structure CodeMap where
  opcode : Op → Byte
  regId  : Reg → Byte

/-- An instruction as the assembler first sees it: a row of the map and operand numbers that may not fit their
fields. A register operand is its place in Reg.all. WellFormed.lean says when it is an instruction (R58, R76). -/
structure RawInstr where
  op       : Op
  operands : List Nat
deriving DecidableEq, Repr

end Sys2Proof
end

