-- ==== Sys2Proof/WellFormed.lean ====
section
/-! DEFINITION. What is well formed. A term of Instr is well formed by its types alone: a register operand is one of
the five (R59), every imm8, addr16, off8 and tgt16 value is legal (R68). What can be ill formed is checked here: a raw
instruction's operand numbers (R58, R76), a program image (R31) and a code map (R71). -/

namespace Sys2Proof

/-- The operand numbers are as many as the fields, each inside its field's range (R58, R76). -/
def operandsFit : List Field → List Nat → Bool
  | [], [] => true
  | f :: fs, n :: ns => decide (n < f.limit) && operandsFit fs ns
  | [], _ :: _ => false
  | _ :: _, [] => false

/-- A raw instruction whose operands fit the fields of its format (R58, R60, R76). -/
def RawInstr.wf (r : RawInstr) : Bool := operandsFit r.op.format.fields r.operands

/-- A program image of at most IMAGE_MAX bytes (R31, R152). -/
def imageWf (image : List Byte) : Bool := decide (image.length ≤ Config.imageMax)

/-- A code map is injective on the 35 pairs and on the five registers (R71). -/
def CodeMap.wf (m : CodeMap) : Bool :=
  decide ((Op.all.map m.opcode).Nodup) && decide ((Reg.all.map m.regId).Nodup)

end Sys2Proof
end

