-- ==== Sys2Proof/Decode.lean ====
section
/-! DEFINITION. The encoding: byte order, the opcode map and register ids (R59, R61), the decoder, total on any bytes and
rejecting by name in the order of R140, and after it the encoder written from the same tables. Spec: 30_encoding R57 to
R63, R67, R68, R71. The decoder sees bytes, the machine sees instructions only. -/

namespace Sys2Proof

/-! ## Byte order (R6, R41, R58) -/

/-- `hi:lo`, the 16-bit value with hi as its high byte (R6). -/
def bytePair (hi lo : Byte) : Addr := hi ++ lo

/-- `v[15:8]` (R6). -/
def hiByte (v : Addr) : Byte := v.extractLsb' 8 8

/-- `v[7:0]` (R6). -/
def loByte (v : Addr) : Byte := v.extractLsb' 0 8

/-! ## The tables (R59, R61, R63) -/

/-- The opcode byte of each row (R61). The values are the spec's decision D1 (log 7). -/
def opcodeByte : Op → Byte
  | .nop => 0x00#8
  | .ldReg => 0x10#8
  | .ldImm => 0x11#8
  | .ldInd => 0x12#8
  | .ldIdx => 0x13#8
  | .stReg => 0x14#8
  | .stInd => 0x16#8
  | .stIdx => 0x17#8
  | .addReg => 0x20#8
  | .addImm => 0x21#8
  | .addInd => 0x22#8
  | .addIdx => 0x23#8
  | .subReg => 0x24#8
  | .subImm => 0x25#8
  | .subInd => 0x26#8
  | .subIdx => 0x27#8
  | .cmpReg => 0x28#8
  | .cmpImm => 0x29#8
  | .cmpInd => 0x2A#8
  | .cmpIdx => 0x2B#8
  | .inc => 0x2C#8
  | .dec => 0x2D#8
  | .jmp => 0x30#8
  | .jc => 0x38#8
  | .jnc => 0x39#8
  | .jp => 0x3A#8
  | .jnp => 0x3B#8
  | .jz => 0x3C#8
  | .jnz => 0x3D#8
  | .js => 0x3E#8
  | .jns => 0x3F#8
  | .call => 0x40#8
  | .ret => 0x41#8
  | .push => 0x42#8
  | .pop => 0x43#8

/-- The id byte of each register (R59). The values are the spec's decision D2 (log 7). -/
def regIdByte : Reg → Byte
  | .A => 0x00#8
  | .B => 0x01#8
  | .C => 0x02#8
  | .X => 0x03#8
  | .Y => 0x04#8

/-- The default code map: the tables of R59 and R61 (R71). -/
def CodeMap.standard : CodeMap := { opcode := opcodeByte, regId := regIdByte }

/-- Len: the bytes of the instruction with this row, the length column of R61 (R63, whose list gives 0x22, 0x26 and 0x2A as 2:
log 15). -/
def Op.len : Op → Nat
  | .nop | .inc | .dec | .ret => 1
  | .addReg | .addImm | .addIdx | .subReg | .subImm | .subIdx | .cmpReg | .cmpImm | .cmpIdx | .push | .pop => 2
  | .addInd | .subInd | .cmpInd => 3
  | .ldReg | .ldImm | .ldIdx | .stReg | .stIdx => 3
  | .jmp | .jc | .jnc | .jp | .jnp | .jz | .jnz | .js | .jns | .call => 3
  | .ldInd | .stInd => 4

/-- The row an opcode byte stands for; none for an unassigned byte (R61, R68). -/
def opOfByte (m : CodeMap) (b : Byte) : Option Op := Op.all.find? (fun o => m.opcode o == b)

/-- The register an id byte names; none for a byte that names none (R59). -/
def regOfByte (m : CodeMap) (b : Byte) : Option Reg := Reg.all.find? (fun r => m.regId r == b)

/-! ## The decoder -/

/-- Why bytes are not an instruction. -/
inductive DecodeError where
  /-- There is no opcode byte. -/
  | noBytes
  /-- The opcode byte is unassigned (R133). -/
  | invalidOpcode (b : Byte)
  /-- The opcode is assigned and an operand byte is missing; the byte is the opcode (R136, R139). -/
  | truncated (opcode : Byte)
  /-- A reg field byte names no register; the byte is that field's (R134, R139). -/
  | invalidRegister (b : Byte)
deriving DecidableEq, Repr

/-- What decoding answers: an instruction with the bytes after it, or why there is none. -/
abbrev Decoded := Except DecodeError (Instr × List Byte)

/-- Continue with the register an id byte names (R59, R134). -/
def withReg (m : CodeMap) (b : Byte) (k : Reg → Decoded) : Decoded :=
  match regOfByte m b with
  | some r => k r
  | none => .error (.invalidRegister b)

/-- Format Z: no operand bytes (R60). -/
def formatZ (i : Instr) (rest : List Byte) : Decoded := .ok (i, rest)

/-- Format R: one register (R60). -/
def formatR (m : CodeMap) (opcode : Byte) (mk : Reg → Instr) : List Byte → Decoded
  | b1 :: rest => withReg m b1 fun r => .ok (mk r, rest)
  | [] => .error (.truncated opcode)

/-- Formats I and X: one byte, imm8 or off8 (R60). -/
def formatB (opcode : Byte) (mk : Byte → Instr) : List Byte → Decoded
  | b1 :: rest => .ok (mk b1, rest)
  | [] => .error (.truncated opcode)

/-- Formats M and L: a 16-bit address, high byte first (R60, R41). -/
def formatW (opcode : Byte) (mk : Addr → Instr) : List Byte → Decoded
  | b1 :: b2 :: rest => .ok (mk (bytePair b1 b2), rest)
  | _ => .error (.truncated opcode)

/-- Format RR: two registers; the first bad id in byte order is reported (R60, R134). -/
def formatRR (m : CodeMap) (opcode : Byte) (mk : Reg → Reg → Instr) : List Byte → Decoded
  | b1 :: b2 :: rest => withReg m b1 fun r => withReg m b2 fun r2 => .ok (mk r r2, rest)
  | _ => .error (.truncated opcode)

/-- Formats RI and RX: a register and one byte (R60). -/
def formatRB (m : CodeMap) (opcode : Byte) (mk : Reg → Byte → Instr) : List Byte → Decoded
  | b1 :: b2 :: rest => withReg m b1 fun r => .ok (mk r b2, rest)
  | _ => .error (.truncated opcode)

/-- Format RM: a register and a 16-bit address, high byte first (R60, R41). -/
def formatRW (m : CodeMap) (opcode : Byte) (mk : Reg → Addr → Instr) : List Byte → Decoded
  | b1 :: b2 :: b3 :: rest => withReg m b1 fun r => .ok (mk r (bytePair b2 b3), rest)
  | _ => .error (.truncated opcode)

/-- Decode the operand bytes of a row (R60, R61); b is the opcode byte itself, for R139. Missing bytes are found before a
bad register id (R140). -/
def decodeOperands (m : CodeMap) (b : Byte) (op : Op) (rest : List Byte) : Decoded :=
  match op with
  | .nop => formatZ .nop rest
  | .ldReg => formatRR m b .ldReg rest
  | .ldImm => formatRB m b .ldImm rest
  | .ldInd => formatRW m b .ldInd rest
  | .ldIdx => formatRB m b .ldIdx rest
  | .stReg => formatRR m b .stReg rest
  | .stInd => formatRW m b .stInd rest
  | .stIdx => formatRB m b .stIdx rest
  | .addReg => formatR m b .addReg rest
  | .addImm => formatB b .addImm rest
  | .addInd => formatW b .addInd rest
  | .addIdx => formatB b .addIdx rest
  | .subReg => formatR m b .subReg rest
  | .subImm => formatB b .subImm rest
  | .subInd => formatW b .subInd rest
  | .subIdx => formatB b .subIdx rest
  | .cmpReg => formatR m b .cmpReg rest
  | .cmpImm => formatB b .cmpImm rest
  | .cmpInd => formatW b .cmpInd rest
  | .cmpIdx => formatB b .cmpIdx rest
  | .inc => formatZ .inc rest
  | .dec => formatZ .dec rest
  | .jmp => formatW b .jmp rest
  | .jc => formatW b .jc rest
  | .jnc => formatW b .jnc rest
  | .jp => formatW b .jp rest
  | .jnp => formatW b .jnp rest
  | .jz => formatW b .jz rest
  | .jnz => formatW b .jnz rest
  | .js => formatW b .js rest
  | .jns => formatW b .jns rest
  | .call => formatW b .call rest
  | .ret => formatZ .ret rest
  | .push => formatR m b .push rest
  | .pop => formatR m b .pop rest

/-- Decode the instruction at the head of the bytes under a code map (R57, R67). -/
def decodeWith (m : CodeMap) : List Byte → Decoded
  | [] => .error .noBytes
  | b :: rest =>
    match opOfByte m b with
    | none => .error (.invalidOpcode b)
    | some op => decodeOperands m b op rest

/-- Decode under the default code map (R61, R71). -/
def decode (bytes : List Byte) : Decoded := decodeWith CodeMap.standard bytes

/-! ## The encoder -/

/-- The bytes of an instruction under a code map: the opcode byte, then the fields of its format (R60, R81). -/
def encodeWith (m : CodeMap) : Instr → List Byte
  | .nop => [m.opcode .nop]
  | .ldReg r r2 => [m.opcode .ldReg, m.regId r, m.regId r2]
  | .ldImm r n => [m.opcode .ldImm, m.regId r, n]
  | .ldInd r a => [m.opcode .ldInd, m.regId r, hiByte a, loByte a]
  | .ldIdx r o => [m.opcode .ldIdx, m.regId r, o]
  | .stReg r r2 => [m.opcode .stReg, m.regId r, m.regId r2]
  | .stInd r a => [m.opcode .stInd, m.regId r, hiByte a, loByte a]
  | .stIdx r o => [m.opcode .stIdx, m.regId r, o]
  | .addReg r => [m.opcode .addReg, m.regId r]
  | .addImm n => [m.opcode .addImm, n]
  | .addInd a => [m.opcode .addInd, hiByte a, loByte a]
  | .addIdx o => [m.opcode .addIdx, o]
  | .subReg r => [m.opcode .subReg, m.regId r]
  | .subImm n => [m.opcode .subImm, n]
  | .subInd a => [m.opcode .subInd, hiByte a, loByte a]
  | .subIdx o => [m.opcode .subIdx, o]
  | .cmpReg r => [m.opcode .cmpReg, m.regId r]
  | .cmpImm n => [m.opcode .cmpImm, n]
  | .cmpInd a => [m.opcode .cmpInd, hiByte a, loByte a]
  | .cmpIdx o => [m.opcode .cmpIdx, o]
  | .inc => [m.opcode .inc]
  | .dec => [m.opcode .dec]
  | .jmp t => [m.opcode .jmp, hiByte t, loByte t]
  | .jc t => [m.opcode .jc, hiByte t, loByte t]
  | .jnc t => [m.opcode .jnc, hiByte t, loByte t]
  | .jp t => [m.opcode .jp, hiByte t, loByte t]
  | .jnp t => [m.opcode .jnp, hiByte t, loByte t]
  | .jz t => [m.opcode .jz, hiByte t, loByte t]
  | .jnz t => [m.opcode .jnz, hiByte t, loByte t]
  | .js t => [m.opcode .js, hiByte t, loByte t]
  | .jns t => [m.opcode .jns, hiByte t, loByte t]
  | .call t => [m.opcode .call, hiByte t, loByte t]
  | .ret => [m.opcode .ret]
  | .push r => [m.opcode .push, m.regId r]
  | .pop r => [m.opcode .pop, m.regId r]

/-- The bytes of an instruction under the default code map (R61, R71). -/
def encode (i : Instr) : List Byte := encodeWith CodeMap.standard i

/-! ## One word of the opcode table -/

/-- The bytes of an instruction whose bits are w: byte k is bits 8k+7 down to 8k, and every bit from nbits up to the
longest instruction (R57: 4 bytes) is 0. -/
def tableBytes (nbits w : Nat) : List Byte :=
  let v := w % 2 ^ nbits
  [BitVec.ofNat 8 v, BitVec.ofNat 8 (v / 256), BitVec.ofNat 8 (v / 65536), BitVec.ofNat 8 (v / 16777216)]

/-- The instruction the decoder reads from a word of spec/opcode_table.json. -/
def decodeTableWord (nbits w : Nat) : Option Instr :=
  match decode (tableBytes nbits w) with
  | .ok (i, _) => some i
  | .error _ => none

end Sys2Proof
end

