-- ==== Sys2Proof/Machine/State.lean ====
section
/-! DEFINITION. The state of the Popola 8-bit core as plain data, the reasons a step stops, and the state after reset.
Spec: 10_state R13 to R34, 60_exceptions R132 to R139, 70_reset R161 to R163. SP and XY are no fields: they are computed
from mem and from x and y at each use (R15, R26, R33). -/

namespace Sys2Proof.Machine

/-- Data memory: (address, byte) pairs, addresses rising, no pair equal to what an unlisted address reads as
(Machine/Ops.lean: Memory.wf). -/
abbrev Memory := List Host.Cell

/-- The four flags (R21). -/
structure Flags where
  /-- F.C, carry or borrow. -/
  c : Bool
  /-- F.P, "parity": a least significant bit, never a count of bits (R21, conflict C9). -/
  p : Bool
  /-- F.Z, zero. -/
  z : Bool
  /-- F.S, sign. -/
  s : Bool
deriving DecidableEq, Repr

/-- IO_INTERCEPT: whether the host intercepts 0x0FF2..0x0FFF during a step (R5, R47). -/
inductive IoIntercept where
  | none
  | oracle
deriving DecidableEq, Repr

/-- An intercepted write the host observes (R47). -/
structure IoEvent where
  addr  : Addr
  value : Byte
deriving DecidableEq, Repr

/-- The state of the block (R33, R34), the parameter IO_INTERCEPT (R5), and the model's two own fields for it. -/
structure State where
  /-- Register A, the accumulator (R13). -/
  a : Byte
  /-- Register B (R13). -/
  b : Byte
  /-- Register C (R13). -/
  c : Byte
  /-- Register X, the index high byte (R13, R15). -/
  x : Byte
  /-- Register Y, the index low byte (R13, R15). -/
  y : Byte
  /-- The program counter, a byte address in the image (R17). -/
  pc : Addr
  /-- The four flags (R21). -/
  flags : Flags
  /-- The 65536 bytes of data memory (R29). -/
  mem : Memory
  /-- The program image, L = image.length (R30). -/
  image : List Byte
  /-- Whether step and run are accepted (R162). -/
  ready : Bool
  /-- The parameter IO_INTERCEPT (R5, R47; log 2). -/
  ioIntercept : IoIntercept
  /-- The model's own: how many intercepted reads have drawn a free value (R47; log 3). -/
  ioDraws : Nat
  /-- The model's own: the intercepted writes the host has observed, oldest first (R45, R47; log 4). -/
  ioEvents : List IoEvent
deriving DecidableEq, Repr

/-- Why a step of a ready machine runs no instruction (R132). Raised by step alone, at fetch and decode, before any effect
(R138); no instruction's meaning raises one (R141). Every one is safe: the state is unchanged, as the spec says. -/
inductive Fault where
  /-- EndOfImage, raised by step when pc = L < 65536. The spec calls it an outcome and NOT a fault (R137); it stands here
  because the interface has three outcomes (log 5). Safe. -/
  | endOfImage
  /-- InvalidOpcode with its record (R133, R139), raised by step on an unassigned opcode byte. Safe. -/
  | invalidOpcode (pc : Addr) (byte : Byte)
  /-- InvalidRegister with its record (R134, R139), raised by step on a reg field above 0x04. Safe. -/
  | invalidRegister (pc : Addr) (byte : Byte)
  /-- FetchOutsideImage with its record (R135, R139), raised by step when L < 65536 and pc > L. Safe. -/
  | fetchOutsideImage (pc : Addr)
  /-- TruncatedInstruction with its record, the byte being the opcode (R136, R139), raised by step. Safe. -/
  | truncatedInstruction (pc : Addr) (byte : Byte)
deriving DecidableEq, Repr

/-- Why a call is refused, with nothing changed. -/
inductive Refusal where
  /-- An instruction with no meaning yet, raised by exec alone. Safe. No arm of exec uses it. -/
  | notModelled (mnemonic : String)
  /-- The host port's refusal of step and run before reset (R154, R162), raised by step. Safe. -/
  | notReady
  /-- The host port's refusal of an image longer than 65536 bytes (R31, R152), raised by portLoad. Safe. -/
  | imageTooLong
deriving DecidableEq, Repr

/-- The machine right after its first reset with no image loaded (R34, R161, R162). The five registers are draws in the
spec (R16); zero is this state's own choice (DESIGN CHOICE, unsafe, log 1). portReset (Machine/Port.lean) is the reset
operation, for every draw and every image. -/
def State.reset : State where
  a := 0x00#8
  b := 0x00#8
  c := 0x00#8
  x := 0x00#8
  y := 0x00#8
  pc := Config.entry
  flags := { c := false, p := false, z := false, s := false }
  mem := []
  image := []
  ready := true
  ioIntercept := .none
  ioDraws := 0
  ioEvents := []

end Sys2Proof.Machine
end

