-- ==== Sys2Proof/Machine/Ops.lean ====
section
/-! DEFINITION. The named operations over memory and registers that every meaning is written in: the data memory and its
canonical form, MemRead and MemWrite with the host's interception, the registers, XY, the memory-resident stack pointer.
Spec: 00_scope R8 to R11, 10_state R13 to R29, 20_memory R35 to R49. This hardware takes no exception and returns from
none (60_exceptions R142, R143), so no such operation stands here. -/

namespace Sys2Proof.Machine

/-! ## Data memory (R29) -/

/-- What an address reads as that nothing has stored to since reset (R29, R35). -/
def Memory.unlisted : Byte := 0x00#8

/-- The byte at a numbered address. -/
def Memory.lookup : Memory → Nat → Byte
  | [], _ => Memory.unlisted
  | (k, v) :: rest, n => if k = n then v else Memory.lookup rest n

/-- Put a byte at a numbered address, keeping addresses rising and listing no byte equal to Memory.unlisted. -/
def Memory.insert (n : Nat) (v : Byte) : Memory → Memory
  | [] => if v = Memory.unlisted then [] else [(n, v)]
  | (k, w) :: rest =>
    if n < k then (if v = Memory.unlisted then (k, w) :: rest else (n, v) :: (k, w) :: rest)
    else if n = k then (if v = Memory.unlisted then rest else (n, v) :: rest)
    else (k, w) :: Memory.insert n v rest

/-- `mem[a]` (R35). -/
def Memory.read (m : Memory) (a : Addr) : Byte := Memory.lookup m a.toNat

/-- `mem[a] <- v` (R36). -/
def Memory.write (m : Memory) (a : Addr) (v : Byte) : Memory := Memory.insert a.toNat v m

/-- Addresses rise from lo, lie below MEM_SIZE, and no listed byte equals Memory.unlisted. -/
def Memory.wfFrom : Nat → Memory → Bool
  | _, [] => true
  | lo, (k, v) :: rest =>
    decide (lo ≤ k) && decide (k < Config.memSize) && decide (v ≠ Memory.unlisted) && Memory.wfFrom (k + 1) rest

/-- The canonical form: equal memories are equal lists. -/
def Memory.wf (m : Memory) : Bool := Memory.wfFrom 0 m

/-! ## The address map (R48, R148) -/

/-- One of the two bytes that hold SP (R26, R48). -/
def isSpByte (a : Addr) : Bool := a == Config.spHiAddr || a == Config.spLoAddr

/-- One of the host-reserved bytes 0x0FF2..0x0FFF (R27, R48). -/
def isHostIo (a : Addr) : Bool := decide (Config.ioFirst.toNat ≤ a.toNat) && decide (a.toNat ≤ Config.ioLast.toNat)

/-- In the 16-byte I/O window (R27, R148). -/
def inIoWindow (a : Addr) : Bool := isSpByte a || isHostIo a

/-- In the video-memory region, whose place and size are OPEN; for the host's use only (R49). -/
def inVideoRegion (a : Addr) : Bool :=
  decide (Config.vramBase.toNat ≤ a.toNat) && decide (a.toNat < Config.vramBase.toNat + Config.vramSize)

/-! ## Data access: MemRead and MemWrite (R35, R36, R47) -/

/-- The byte stored at an address, with no interception. -/
def loadByte (a : Addr) (s : State) : Byte := s.mem.read a

/-- Store a byte at an address, with no event. -/
def storeByte (a : Addr) (v : Byte) (s : State) : State := { s with mem := s.mem.write a v }

/-- Whether the host intercepts an access (R47). -/
def intercepted (a : Addr) (s : State) : Bool := decide (s.ioIntercept = .oracle) && isHostIo a

/-- Count one draw of the free value Config.ioDraw (log 3). -/
def countDraw (s : State) : State := { s with ioDraws := s.ioDraws + 1 }

/-- Record a write the host observes, after the earlier ones (R45, R47; log 4). -/
def recordEvent (a : Addr) (v : Byte) (s : State) : State := { s with ioEvents := s.ioEvents ++ [⟨a, v⟩] }

/-- `MemRead(a, 1)`: the stored byte, or a draw where the host intercepts (R35, R47). -/
def memRead (a : Addr) (s : State) : Byte × State :=
  if intercepted a s then (Config.ioDraw s.ioDraws, countDraw s) else (loadByte a s, s)

/-- `MemWrite(a, 1, v)`: always stores, and is an event where the host intercepts (R36, R47). -/
def memWrite (a : Addr) (v : Byte) (s : State) : State :=
  if intercepted a s then recordEvent a v (storeByte a v s) else storeByte a v s

/-! ## Registers, pc and flags (R8, R11) -/

/-- `x[r]` (R8). -/
def readReg (r : Reg) (s : State) : Byte :=
  match r with
  | .A => s.a
  | .B => s.b
  | .C => s.c
  | .X => s.x
  | .Y => s.y

/-- `x[r] <- v` (R8). No register is hardwired (R13). -/
def writeReg (r : Reg) (v : Byte) (s : State) : State :=
  match r with
  | .A => { s with a := v }
  | .B => { s with b := v }
  | .C => { s with c := v }
  | .X => { s with x := v }
  | .Y => { s with y := v }

/-- `pc <- target` (R11). -/
def setPc (target : Addr) (s : State) : State := { s with pc := target }

/-- Overwrite all four flags (R22). -/
def setFlags (f : Flags) (s : State) : State := { s with flags := f }

/-- XY, computed from X and Y at each use (R15). -/
def xy (s : State) : Addr := bytePair s.x s.y

/-! ## The stack pointer (R26, R38, R39) -/

/-- `SPRead()`: high byte, then low byte, read fresh from memory; the two bytes are never intercepted (R38, R40, R47). -/
def spRead (s : State) : Addr := bytePair (loadByte Config.spHiAddr s) (loadByte Config.spLoAddr s)

/-- `SPWrite(v)`: high byte, then low byte; neither write is intercepted (R39, R47). -/
def spWrite (v : Addr) (s : State) : State :=
  storeByte Config.spLoAddr (loByte v) (storeByte Config.spHiAddr (hiByte v) s)

end Sys2Proof.Machine
end

