-- ==== Sys2Proof/Machine/Operands.lean ====
section
/-! DEFINITION. Operand resolution: the source value Src, the indexed effective address and the destination Dst, one
definition per form. Spec: 30_encoding R64, R65, R66. A source answers its value and the state after its one access. -/

namespace Sys2Proof.Machine

/-- `EAidx(off)`: XY plus the zero-extended offset, modulo 65536 (R65; decision D20). -/
def eaIdx (off : Byte) (s : State) : Addr := xy s + off.setWidth 16

/-- `Src(reg, r)` (R64). -/
def srcReg (r : Reg) (s : State) : Byte × State := (readReg r s, s)

/-- `Src(imm, n)` (R64). -/
def srcImm (n : Byte) (s : State) : Byte × State := (n, s)

/-- `Src(ind, a)` (R64). -/
def srcInd (a : Addr) (s : State) : Byte × State := memRead a s

/-- `Src(idx, off)` (R64). -/
def srcIdx (off : Byte) (s : State) : Byte × State := memRead (eaIdx off s) s

/-- `Dst(reg, r) <- v` (R66). -/
def dstReg (r : Reg) (v : Byte) (s : State) : State := writeReg r v s

/-- `Dst(ind, a) <- v` (R66). -/
def dstInd (a : Addr) (v : Byte) (s : State) : State := memWrite a v s

/-- `Dst(idx, off) <- v` (R66). -/
def dstIdx (off : Byte) (v : Byte) (s : State) : State := memWrite (eaIdx off s) v s

end Sys2Proof.Machine
end

