-- ==== Sys2Proof/Machine/DataMovement.lean ====
section
/-! DEFINITION. Data movement: LD and ST (40_data_movement R85 to R93). No flag is written (R85). Every meaning runs with
pc already at next (R12). -/

namespace Sys2Proof.Machine

/-- What a meaning answers. -/
abbrev Answer := Host.Outcome State Fault Refusal

/-- Load a resolved source into a register. -/
def loadInto (r : Reg) (src : Byte × State) : State := writeReg r src.1 src.2

/-- LD r, r2 (R86). -/
def execLdReg (r r2 : Reg) (s : State) : Answer := .next (loadInto r (srcReg r2 s))

/-- LD r, n (R87). -/
def execLdImm (r : Reg) (n : Byte) (s : State) : Answer := .next (loadInto r (srcImm n s))

/-- LD r, #a (R88). -/
def execLdInd (r : Reg) (addr : Addr) (s : State) : Answer := .next (loadInto r (srcInd addr s))

/-- LD r, XY+N: the address uses X and Y as they were before the load (R89). -/
def execLdIdx (r : Reg) (off : Byte) (s : State) : Answer := .next (loadInto r (srcIdx off s))

/-- ST r, r2: r2 receives r (R90). -/
def execStReg (r r2 : Reg) (s : State) : Answer := .next (dstReg r2 (readReg r s) s)

/-- ST r, #a (R91). -/
def execStInd (r : Reg) (addr : Addr) (s : State) : Answer := .next (dstInd addr (readReg r s) s)

/-- ST r, XY+N (R92). -/
def execStIdx (r : Reg) (off : Byte) (s : State) : Answer := .next (dstIdx off (readReg r s) s)

end Sys2Proof.Machine
end

