-- ==== Sys2Proof/Machine/Flags.lean ====
section
/-! DEFINITION. The two flag rules: ArithFlags (41_arithmetic R94) and CmpFlags (42_compare R106), which the spec forbids
to derive from one another (R107). -/

namespace Sys2Proof.Machine

/-- `ArithFlags(r, carry)`: all four flags from the 8-bit result and the unsigned carry or borrow (R94). -/
def arithFlags (r : Byte) (carry : Bool) : Flags where
  c := carry
  p := r.getLsbD 0
  z := decide (r = 0#8)
  s := r.getLsbD 7

/-- `CmpFlags(a, n)`: unsigned less-than, equal bit 0, equal bit 7, equality (R106). -/
def cmpFlags (acc n : Byte) : Flags where
  c := decide (acc.toNat < n.toNat)
  p := decide (acc.getLsbD 0 = n.getLsbD 0)
  z := decide (acc = n)
  s := decide (acc.getLsbD 7 = n.getLsbD 7)

end Sys2Proof.Machine
end

