-- ==== Sys2Proof/Machine/Arithmetic.lean ====
section
/-! DEFINITION. Arithmetic on the accumulator: ADD, SUB, INC, DEC (41_arithmetic R94 to R105). Each writes A and all four
flags; no flag is an input (R95). -/

namespace Sys2Proof.Machine

/-- The common ADD: `s <- x[A] + n; r <- s mod 256; x[A] <- r; ArithFlags(r, s > 255)` (R95). -/
def addToA (n : Byte) (s : State) : State :=
  let sum := s.a.toNat + n.toNat
  let r := BitVec.ofNat 8 sum
  setFlags (arithFlags r (decide (sum > 255))) (writeReg .A r s)

/-- The common SUB: `r <- (x[A] - n) mod 256; c <- x[A] <u n; x[A] <- r; ArithFlags(r, c)`, the borrow taken from A before it
is written (R95). -/
def subFromA (n : Byte) (s : State) : State :=
  let r := BitVec.ofInt 8 ((s.a.toNat : Int) - (n.toNat : Int))
  let borrow := decide (s.a.toNat < n.toNat)
  setFlags (arithFlags r borrow) (writeReg .A r s)

/-- ADD r (R96). -/
def execAddReg (r : Reg) (s : State) : Answer := .next (addToA (srcReg r s).1 (srcReg r s).2)

/-- ADD n (R97). -/
def execAddImm (n : Byte) (s : State) : Answer := .next (addToA (srcImm n s).1 (srcImm n s).2)

/-- ADD #a (R98). -/
def execAddInd (addr : Addr) (s : State) : Answer := .next (addToA (srcInd addr s).1 (srcInd addr s).2)

/-- ADD XY+N (R99). -/
def execAddIdx (off : Byte) (s : State) : Answer := .next (addToA (srcIdx off s).1 (srcIdx off s).2)

/-- SUB r (R100). -/
def execSubReg (r : Reg) (s : State) : Answer := .next (subFromA (srcReg r s).1 (srcReg r s).2)

/-- SUB n (R101). -/
def execSubImm (n : Byte) (s : State) : Answer := .next (subFromA (srcImm n s).1 (srcImm n s).2)

/-- SUB #a (R102). -/
def execSubInd (addr : Addr) (s : State) : Answer := .next (subFromA (srcInd addr s).1 (srcInd addr s).2)

/-- SUB XY+N (R103). -/
def execSubIdx (off : Byte) (s : State) : Answer := .next (subFromA (srcIdx off s).1 (srcIdx off s).2)

/-- INC: `s <- x[A] + 1`, the common ADD with 1 (R104). -/
def execInc (s : State) : Answer := .next (addToA 1#8 s)

/-- DEC: `r <- (x[A] - 1) mod 256; c <- (x[A] == 0)`, the common SUB with 1, whose borrow is A = 0 (R105). -/
def execDec (s : State) : Answer := .next (subFromA 1#8 s)

end Sys2Proof.Machine
end

