-- ==== Sys2Proof/Machine/Compare.lean ====
section
/-! DEFINITION. Compare: CMP (42_compare R106 to R111). All four flags by their own rule; A is not written. -/

namespace Sys2Proof.Machine

/-- The common CMP: `CmpFlags(x[A], n)` (R107). -/
def compareA (n : Byte) (s : State) : State := setFlags (cmpFlags s.a n) s

/-- CMP r (R108). -/
def execCmpReg (r : Reg) (s : State) : Answer := .next (compareA (srcReg r s).1 (srcReg r s).2)

/-- CMP n (R109). -/
def execCmpImm (n : Byte) (s : State) : Answer := .next (compareA (srcImm n s).1 (srcImm n s).2)

/-- CMP #a (R110). -/
def execCmpInd (addr : Addr) (s : State) : Answer := .next (compareA (srcInd addr s).1 (srcInd addr s).2)

/-- CMP XY+N (R111). -/
def execCmpIdx (off : Byte) (s : State) : Answer := .next (compareA (srcIdx off s).1 (srcIdx off s).2)

end Sys2Proof.Machine
end

