-- ==== Sys2Proof/Machine/ControlFlow.lean ====
section
/-! DEFINITION. Control flow: JMP, the eight conditional jumps, CALL, RET (43_control_flow R112 to R124). Targets are
absolute code addresses; a jump never faults when it executes (R112). pc is already next (R12). -/

namespace Sys2Proof.Machine

/-- `if cond: pc <- tgt16`, else pc stays at next (R113). -/
def jumpIf (cond : Bool) (tgt : Addr) (s : State) : State := if cond then setPc tgt s else s

/-- JMP l (R114). -/
def execJmp (tgt : Addr) (s : State) : Answer := .next (setPc tgt s)

/-- JC l: taken when F.C = 1 (R115). -/
def execJc (tgt : Addr) (s : State) : Answer := .next (jumpIf s.flags.c tgt s)

/-- JNC l: taken when F.C = 0 (R116). -/
def execJnc (tgt : Addr) (s : State) : Answer := .next (jumpIf (!s.flags.c) tgt s)

/-- JP l: taken when F.P = 1 (R117). -/
def execJp (tgt : Addr) (s : State) : Answer := .next (jumpIf s.flags.p tgt s)

/-- JNP l: taken when F.P = 0 (R118). -/
def execJnp (tgt : Addr) (s : State) : Answer := .next (jumpIf (!s.flags.p) tgt s)

/-- JZ l: taken when F.Z = 1 (R119). -/
def execJz (tgt : Addr) (s : State) : Answer := .next (jumpIf s.flags.z tgt s)

/-- JNZ l: taken when F.Z = 0 (R120). -/
def execJnz (tgt : Addr) (s : State) : Answer := .next (jumpIf (!s.flags.z) tgt s)

/-- JS l: taken when F.S = 1 (R121). -/
def execJs (tgt : Addr) (s : State) : Answer := .next (jumpIf s.flags.s tgt s)

/-- JNS l: taken when F.S = 0 (R122). -/
def execJns (tgt : Addr) (s : State) : Answer := .next (jumpIf (!s.flags.s) tgt s)

/-- The stack part of CALL: SP read fresh, decremented by 2 and written first, then the return address, high byte at the
new SP and low byte at the next address (R123; R129 where they land on SP itself). -/
def pushReturn (ret : Addr) (s : State) : State :=
  let nsp := spRead s - 2#16
  memWrite (nsp + 1#16) (loByte ret) (memWrite nsp (hiByte ret) (spWrite nsp s))

/-- CALL l: push next, then jump (R123). -/
def execCall (tgt : Addr) (s : State) : Answer := .next (setPc tgt (pushReturn s.pc s))

/-- The stack part of RET: both bytes are read before SP is written (R124). -/
def popReturn (s : State) : Addr × State :=
  let sp := spRead s
  let hi := memRead sp s
  let lo := memRead (sp + 1#16) hi.2
  (bytePair hi.1 lo.1, spWrite (sp + 2#16) lo.2)

/-- RET: pop the return address into pc (R124). -/
def execRet (s : State) : Answer := .next (setPc (popReturn s).1 (popReturn s).2)

end Sys2Proof.Machine
end

