-- ==== Sys2Proof/Machine/NoOperation.lean ====
section
/-! DEFINITION. NOP (45_nop R130, R131): pc is already next; nothing else changes. -/

namespace Sys2Proof.Machine

/-- NOP (R130). -/
def execNop (s : State) : Answer := .next s

end Sys2Proof.Machine
end

