-- ==== Sys2Proof/Machine/Stack.lean ====
section
/-! DEFINITION. Stack: PUSH and POP (44_stack R126 to R129). The stack grows down, SP addresses the most recently pushed
byte, and SP is read fresh from memory (R126, R40). -/

namespace Sys2Proof.Machine

/-- Push a byte: SP is decremented and written first, then the byte at the new SP (R127; R129 where it lands on SP). -/
def pushByte (v : Byte) (s : State) : State :=
  let nsp := spRead s - 1#16
  memWrite nsp v (spWrite nsp s)

/-- Pop a byte: read at SP, then SP is incremented and written (R128). -/
def popByte (s : State) : Byte × State :=
  let sp := spRead s
  let top := memRead sp s
  (top.1, spWrite (sp + 1#16) top.2)

/-- PUSH r (R127). -/
def execPush (r : Reg) (s : State) : Answer := .next (pushByte (readReg r s) s)

/-- POP r: the register is written last (R128). -/
def execPop (r : Reg) (s : State) : Answer := .next (loadInto r (popByte s))

end Sys2Proof.Machine
end

