-- ==== Sys2Proof/Machine/Dispatch.lean ====
section
/-! DEFINITION. One arm per instruction: the meaning each one has (30_encoding R61, R67). -/

namespace Sys2Proof.Machine

def exec (i : Instr) (s : State) : Host.Outcome State Fault Refusal :=
  match i with
  | .nop => Sys2Proof.Machine.execNop s
  | .ldReg r r2 => Sys2Proof.Machine.execLdReg r r2 s
  | .ldImm r n => Sys2Proof.Machine.execLdImm r n s
  | .ldInd r addr => Sys2Proof.Machine.execLdInd r addr s
  | .ldIdx r off => Sys2Proof.Machine.execLdIdx r off s
  | .stReg r r2 => Sys2Proof.Machine.execStReg r r2 s
  | .stInd r addr => Sys2Proof.Machine.execStInd r addr s
  | .stIdx r off => Sys2Proof.Machine.execStIdx r off s
  | .addReg r => Sys2Proof.Machine.execAddReg r s
  | .addImm n => Sys2Proof.Machine.execAddImm n s
  | .addInd addr => Sys2Proof.Machine.execAddInd addr s
  | .addIdx off => Sys2Proof.Machine.execAddIdx off s
  | .subReg r => Sys2Proof.Machine.execSubReg r s
  | .subImm n => Sys2Proof.Machine.execSubImm n s
  | .subInd addr => Sys2Proof.Machine.execSubInd addr s
  | .subIdx off => Sys2Proof.Machine.execSubIdx off s
  | .cmpReg r => Sys2Proof.Machine.execCmpReg r s
  | .cmpImm n => Sys2Proof.Machine.execCmpImm n s
  | .cmpInd addr => Sys2Proof.Machine.execCmpInd addr s
  | .cmpIdx off => Sys2Proof.Machine.execCmpIdx off s
  | .inc => Sys2Proof.Machine.execInc s
  | .dec => Sys2Proof.Machine.execDec s
  | .jmp tgt => Sys2Proof.Machine.execJmp tgt s
  | .jc tgt => Sys2Proof.Machine.execJc tgt s
  | .jnc tgt => Sys2Proof.Machine.execJnc tgt s
  | .jp tgt => Sys2Proof.Machine.execJp tgt s
  | .jnp tgt => Sys2Proof.Machine.execJnp tgt s
  | .jz tgt => Sys2Proof.Machine.execJz tgt s
  | .jnz tgt => Sys2Proof.Machine.execJnz tgt s
  | .js tgt => Sys2Proof.Machine.execJs tgt s
  | .jns tgt => Sys2Proof.Machine.execJns tgt s
  | .call tgt => Sys2Proof.Machine.execCall tgt s
  | .ret => Sys2Proof.Machine.execRet s
  | .push r => Sys2Proof.Machine.execPush r s
  | .pop r => Sys2Proof.Machine.execPop r s

end Sys2Proof.Machine
end

