-- ==== Sys2Proof/Machine/Fetch.lean ====
section
/-! DEFINITION. Fetching: the bounds of the code space, the bytes of the instruction at pc, and placing an instruction
there. Spec: 00_scope R10, 10_state R18, R19, R30, 30_encoding R67, 60_exceptions R132 to R140. -/

namespace Sys2Proof.Machine

/-- `CodeRead(a)`, for a < L (R10, R30). -/
def codeRead (a : Nat) (s : State) : Option Byte := s.image[a]?

/-- Byte i of the instruction at pc: none where it lies outside the image; with L = 65536 the address wraps (R19, R67). -/
def instrByte (i : Nat) (s : State) : Option Byte :=
  let a := s.pc.toNat + i
  if s.image.length < Config.imageMax ∧ s.image.length ≤ a then none else codeRead (a % Config.imageMax) s

/-- The bytes from byte i on, at most n of them, up to the first that is outside the image. -/
def instrBytesFrom (s : State) : Nat → Nat → List Byte
  | _, 0 => []
  | i, n + 1 =>
    match instrByte i s with
    | none => []
    | some b => b :: instrBytesFrom s (i + 1) n

/-- The bytes at pc, as many as the longest instruction has (R57: 4) and the image holds. -/
def fetchWindow (s : State) : List Byte := instrBytesFrom s 0 4

/-- The bound check at the start of a step: EndOfImage at pc = L, FetchOutsideImage past it (R67, R135, R137). -/
def fetchStop (s : State) : Option Fault :=
  if s.image.length < Config.imageMax ∧ s.image.length ≤ s.pc.toNat then
    if s.pc.toNat = s.image.length then some .endOfImage else some (.fetchOutsideImage s.pc)
  else none

/-- The fault a decode error is, with its record (R133, R134, R136, R139). noBytes does not occur after fetchStop has
passed on an image of at most 65536 bytes. -/
def decodeFault (here : Addr) : DecodeError → Fault
  | .noBytes => .fetchOutsideImage here
  | .invalidOpcode b => .invalidOpcode here b
  | .truncated b => .truncatedInstruction here b
  | .invalidRegister b => .invalidRegister here b

/-- `pc <- (here + len) mod 65536`, before the instruction executes (R18, R67). -/
def advancePast (i : Instr) (s : State) : State := setPc (s.pc + BitVec.ofNat 16 i.op.len) s

/-- An image with the bytes put at code address here: padded with 0x00 up to it, and wrapping at the end of the code
space, which makes the image 65536 bytes long. For withFetchWord (log 8). -/
def placeCode (bytes : List Byte) (here : Nat) (image : List Byte) : List Byte :=
  let stop := here + bytes.length
  if stop ≤ Config.imageMax then
    (image ++ List.replicate (here - image.length) 0x00#8).take here ++ bytes ++ image.drop stop
  else
    let full := image ++ List.replicate (Config.imageMax - image.length) 0x00#8
    let fits := Config.imageMax - here
    bytes.drop fits ++ (full.take here).drop (stop - Config.imageMax) ++ bytes.take fits

end Sys2Proof.Machine
end

