-- ==== Sys2Proof/Machine/Step.lean ====
section
/-! DEFINITION. The step: the ready check, the bound check, decode, advance, execute, in the order of 30_encoding R67 and
60_exceptions R140. -/

namespace Sys2Proof.Machine

/-- `Step()` under a code map (R67, R71, R154). A stop leaves the state as it was (R138). -/
def stepWith (m : CodeMap) (s : State) : Host.Outcome State Fault Refusal :=
  if s.ready then
    match fetchStop s with
    | some f => .fault f
    | none =>
      match decodeWith m (fetchWindow s) with
      | .error e => .fault (decodeFault s.pc e)
      | .ok (i, _) => exec i (advancePast i s)
  else .refused .notReady

/-- `Step()` under the default code map (R67). -/
def step (s : State) : Host.Outcome State Fault Refusal := stepWith CodeMap.standard s

/-- The state whose very next step runs the instruction of a word of the opcode table: its bytes are placed at pc and the
machine is ready, as after a load and the reset that follows it (R164; log 8). -/
def State.withFetchWord (s : State) (nbits w : Nat) : State :=
  { s with image := placeCode (tableBytes nbits w) s.pc.toNat s.image, ready := true }

end Sys2Proof.Machine
end

