-- ==== Sys2Proof/Machine/AsmParser.lean ====
section
/-! DEFINITION. The assembler's source syntax: lines, tokens, literals, operands (30_encoding R72 to R78). A source is a list
of characters. Text outside the grammar is a syntax error, never a guess (decisions D32, D33; log 12). -/

namespace Sys2Proof.Machine

/-- Source text. -/
abbrev Text := List Char

/-- The 21 mnemonics of the source syntax (R61, R78). -/
inductive Mnemonic where
  | ld | st | add | sub | cmp | inc | dec
  | jmp | jc | jnc | jp | jnp | jz | jnz | js | jns
  | call | ret | push | pop | nop
deriving DecidableEq, Repr

/-- An operand as it is spelled (R75). -/
inductive AsmOperand where
  | reg (r : Reg)
  | imm (n : Nat)
  | ind (n : Nat)
  | idx (n : Nat)
  | label (name : Text)
deriving DecidableEq, Repr

/-- A mnemonic with its operands (R72). -/
structure AsmInstr where
  mnemonic : Mnemonic
  operands : List AsmOperand
deriving DecidableEq, Repr

/-- A source line: at most one label definition and one instruction (R72). -/
structure AsmLine where
  number : Nat
  label  : Option Text
  instr  : Option AsmInstr
deriving DecidableEq, Repr

/-- The kinds of assembly error (R82). -/
inductive AsmErrorKind where
  /-- Malformed literal, unterminated operand, a token out of place, a reserved or malformed label name. -/
  | syntaxError
  /-- The mnemonic is none of the 21 (R69, R78, R82). -/
  | unknownMnemonic
  /-- The (mnemonic, form) pair is absent from the map (R81, R93). -/
  | illegalMode
  /-- The label is already bound; the number is the line of its first definition (R80). -/
  | duplicateLabel (firstLine : Nat)
  /-- The label is never defined (R81). -/
  | undefinedLabel
  /-- A literal does not fit its field (R76). -/
  | outOfRange
  /-- The image is longer than 65536 bytes (R82, R31): at the line that passes the limit, and at a line that refers to a label
  past it (log 18). -/
  | imageTooLong
deriving DecidableEq, Repr

/-- An error and its line (R82). -/
structure AsmError where
  line : Nat
  kind : AsmErrorKind
deriving DecidableEq, Repr

/-! ## Characters and literals (R73, R74) -/

/-- White space within a line. -/
def isBlank (c : Char) : Bool := c == ' ' || c == '\t' || c == '\r'

/-- Mnemonics, registers, XY and literal suffixes are case-insensitive (R73). -/
def upper (w : Text) : Text := w.map Char.toUpper

/-- The value of a hexadecimal digit. -/
def digitValue (c : Char) : Option Nat :=
  let u := c.toUpper
  if u.isDigit then some (u.toNat - '0'.toNat)
  else if 'A' ≤ u ∧ u ≤ 'F' then some (u.toNat - 'A'.toNat + 10)
  else none

/-- The number the digits spell in a base, after the value so far; none at a character that is no digit of the base. -/
def digitsValue (base : Nat) : Nat → Text → Option Nat
  | acc, [] => some acc
  | acc, c :: cs =>
    match digitValue c with
    | some d => if d < base then digitsValue base (acc * base + d) cs else none
    | none => none

/-- A literal: decimal, binary with suffix b, hexadecimal with suffix h; its first character is a decimal digit (R74). -/
def parseLiteral (w : Text) : Option Nat :=
  match w.head?, w.getLast? with
  | some first, some last =>
    if !first.isDigit then none
    else if last.toUpper == 'H' then digitsValue 16 0 w.dropLast
    else if last.toUpper == 'B' then digitsValue 2 0 w.dropLast
    else digitsValue 10 0 w
  | _, _ => none

/-! ## Names (R73) -/

/-- The mnemonics' spellings (R61, R78). -/
def mnemonicTable : List (Text × Mnemonic) :=
  [(['L', 'D'], .ld), (['S', 'T'], .st), (['A', 'D', 'D'], .add), (['S', 'U', 'B'], .sub), (['C', 'M', 'P'], .cmp), (['I', 'N', 'C'], .inc), (['D', 'E', 'C'], .dec)] ++
  [(['J', 'M', 'P'], .jmp), (['J', 'C'], .jc), (['J', 'N', 'C'], .jnc), (['J', 'P'], .jp), (['J', 'N', 'P'], .jnp), (['J', 'Z'], .jz), (['J', 'N', 'Z'], .jnz)] ++
  [(['J', 'S'], .js), (['J', 'N', 'S'], .jns), (['C', 'A', 'L', 'L'], .call), (['R', 'E', 'T'], .ret), (['P', 'U', 'S', 'H'], .push), (['P', 'O', 'P'], .pop), (['N', 'O', 'P'], .nop)]

/-- The mnemonic a word spells, ignoring case (R73). -/
def parseMnemonic (w : Text) : Option Mnemonic :=
  (mnemonicTable.find? (fun row => row.1 == upper w)).map Prod.snd

/-- The register a word spells, ignoring case (R73, R75). -/
def parseRegister (w : Text) : Option Reg :=
  match upper w with
  | ['A'] => some .A
  | ['B'] => some .B
  | ['C'] => some .C
  | ['X'] => some .X
  | ['Y'] => some .Y
  | _ => none

/-- The offset of an indexed operand `XY` or `XY+N`, N in decimal digits only (R75, conflict C12). -/
def parseIndexed (w : Text) : Option Nat :=
  match w with
  | [c1, c2] => if upper [c1, c2] == ['X', 'Y'] then some 0 else none
  | c1 :: c2 :: plus :: d :: ds =>
    if upper [c1, c2] == ['X', 'Y'] && plus == '+' then digitsValue 10 0 (d :: ds) else none
  | _ => none

/-- A letter or underscore, the first character of a label name (R73). -/
def isNameStart (c : Char) : Bool := c.isAlpha || c == '_'

/-- A label name: `[A-Za-z_][A-Za-z0-9_]*`, and no mnemonic, register or XY in any case (R73). -/
def isLabelName (w : Text) : Bool :=
  match w with
  | [] => false
  | c :: cs =>
    isNameStart c && cs.all (fun d => isNameStart d || d.isDigit)
      && (parseMnemonic w).isNone && (parseRegister w).isNone && !(upper w == ['X', 'Y'])

/-- An operand, by its spelling (R75). -/
def parseOperand (w : Text) : Option AsmOperand :=
  match w with
  | '#' :: lit => (parseLiteral lit).map .ind
  | _ =>
    match parseRegister w, parseIndexed w, parseLiteral w with
    | some r, _, _ => some (.reg r)
    | none, some n, _ => some (.idx n)
    | none, none, some n => some (.imm n)
    | none, none, none => if isLabelName w then some (.label w) else none

/-! ## Lines (R72) -/

/-- What a line is cut into. -/
inductive Token where
  | word (w : Text)
  | comma
  | colon
deriving DecidableEq, Repr

/-- End the word whose characters, last first, are gathered so far. -/
def endWord (gathered : Text) (rest : List Token) : List Token :=
  if gathered.isEmpty then rest else .word gathered.reverse :: rest

/-- Cut a line into tokens; a comment starts at `;` (R72). -/
def tokensFrom : Text → Text → List Token
  | gathered, [] => endWord gathered []
  | gathered, ch :: rest =>
    if ch == ';' then endWord gathered []
    else if isBlank ch then endWord gathered (tokensFrom [] rest)
    else if ch == ',' then endWord gathered (.comma :: tokensFrom [] rest)
    else if ch == ':' then endWord gathered (.colon :: tokensFrom [] rest)
    else tokensFrom (ch :: gathered) rest

/-- The words of an operand list after its first: each after a comma or after white space alone (R72). -/
def moreOperands : List Token → Option (List Text)
  | [] => some []
  | .word w :: rest => (moreOperands rest).map (w :: ·)
  | .comma :: .word w :: rest => (moreOperands rest).map (w :: ·)
  | .comma :: _ => none
  | .colon :: _ => none

/-- The words of an operand list (R72). -/
def operandWords : List Token → Option (List Text)
  | [] => some []
  | .word w :: rest => (moreOperands rest).map (w :: ·)
  | .comma :: _ => none
  | .colon :: _ => none

/-- The operands some words spell, with a syntax error for each word that spells none (R75, R82; log 18). -/
def parseOperands : List Text → List AsmErrorKind × List AsmOperand
  | [] => ([], [])
  | w :: rest =>
    let later := parseOperands rest
    match parseOperand w with
    | some o => (later.1, o :: later.2)
    | none => (.syntaxError :: later.1, later.2)

/-- The operands of an operand list, with its errors; a list that commas or colons break is one syntax error (R72, R82; log 18). -/
def parseOperandList (tokens : List Token) : List AsmErrorKind × List AsmOperand :=
  match operandWords tokens with
  | some ws => parseOperands ws
  | none => ([.syntaxError], [])

/-- The instruction part of a line: its errors, and its instruction where it has none (R72, R82; log 18). -/
def parseInstr (tokens : List Token) : List AsmErrorKind × Option AsmInstr :=
  match tokens with
  | [] => ([], none)
  | .word w :: rest =>
    let operands := parseOperandList rest
    match parseMnemonic w with
    | none => (.unknownMnemonic :: operands.1, none)
    | some mnemonic => (operands.1, if operands.1.isEmpty then some ⟨mnemonic, operands.2⟩ else none)
  | .comma :: _ => ([.syntaxError], none)
  | .colon :: _ => ([.syntaxError], none)

/-- The label part of a line: its errors, its label where it has a legal one, and the tokens after it (R72, R73; log 18). -/
def parseLabel (tokens : List Token) : List AsmErrorKind × Option Text × List Token :=
  match tokens with
  | .word name :: .colon :: rest => if isLabelName name then ([], some name, rest) else ([.syntaxError], none, rest)
  | other => ([], none, other)

/-- A numbered line: `[label ':'] [mnemonic [operand ...]] [';' comment]` (R72), with all its errors. How many errors one line
reports, and that an erring part leaves the line's other part standing, is the model's choice (R82 does not say: log 18). -/
def parseLine (number : Nat) (text : Text) : List AsmError × AsmLine :=
  let label := parseLabel (tokensFrom [] text)
  let instr := parseInstr label.2.2
  ((label.1 ++ instr.1).map (fun kind => ⟨number, kind⟩), ⟨number, label.2.1, instr.2⟩)

/-- The lines of a source, cut at line feeds; gathered holds the current line's characters, last first. -/
def splitLinesFrom : Text → Text → List Text
  | gathered, [] => [gathered.reverse]
  | gathered, ch :: rest =>
    if ch == '\n' then gathered.reverse :: splitLinesFrom [] rest else splitLinesFrom (ch :: gathered) rest

/-- Parse the lines from a line number on, collecting every error; it never halts at the first, and an erring line keeps what
it has (R82). -/
def parseLinesFrom : Nat → List Text → List AsmError × List AsmLine
  | _, [] => ([], [])
  | number, text :: rest =>
    let line := parseLine number text
    let later := parseLinesFrom (number + 1) rest
    (line.1 ++ later.1, line.2 :: later.2)

/-- Parse a source, its first line numbered 1 (R72, R82). -/
def parseSource (source : Text) : List AsmError × List AsmLine := parseLinesFrom 1 (splitLinesFrom [] source)

end Sys2Proof.Machine
end

