-- ==== Sys2Proof/Machine/Assembler.lean ====
section
/-! DEFINITION. The two-pass assembler: the row each spelled instruction selects, pass 1 (label offsets), pass 2 (bytes), all or
nothing. Spec: 30_encoding R76 to R84. It emits through the decoder's own code map (R71, R81). -/

namespace Sys2Proof.Machine

/-! ## From numbers to an instruction (R58, R76) -/

/-- The register with a place in Reg.all. -/
def regOfIndex (n : Nat) : Option Reg := Reg.all[n]?

/-- A number as an imm8 or off8 field; none where it does not fit. -/
def byteOfNat (n : Nat) : Option Byte := if n < 256 then some (BitVec.ofNat 8 n) else none

/-- A number as an addr16 or tgt16 field; none where it does not fit. -/
def addrOfNat (n : Nat) : Option Addr := if n < 65536 then some (BitVec.ofNat 16 n) else none

/-- Format Z. -/
def rawZ (i : Instr) : List Nat → Option Instr
  | [] => some i
  | _ => none

/-- Format R. -/
def rawR (mk : Reg → Instr) : List Nat → Option Instr
  | [r] => (regOfIndex r).map mk
  | _ => none

/-- Formats I and X. -/
def rawB (mk : Byte → Instr) : List Nat → Option Instr
  | [n] => (byteOfNat n).map mk
  | _ => none

/-- Formats M and L. -/
def rawW (mk : Addr → Instr) : List Nat → Option Instr
  | [n] => (addrOfNat n).map mk
  | _ => none

/-- Format RR. -/
def rawRR (mk : Reg → Reg → Instr) : List Nat → Option Instr
  | [r, r2] => (regOfIndex r).bind fun a => (regOfIndex r2).map (mk a)
  | _ => none

/-- Formats RI and RX. -/
def rawRB (mk : Reg → Byte → Instr) : List Nat → Option Instr
  | [r, n] => (regOfIndex r).bind fun a => (byteOfNat n).map (mk a)
  | _ => none

/-- Format RM. -/
def rawRW (mk : Reg → Addr → Instr) : List Nat → Option Instr
  | [r, n] => (regOfIndex r).bind fun a => (addrOfNat n).map (mk a)
  | _ => none

/-- The instruction a raw instruction is; none where it is ill formed (RawInstr.wf). -/
def instrOfRaw (raw : RawInstr) : Option Instr :=
  (match raw.op with
  | .nop => rawZ .nop
  | .ldReg => rawRR .ldReg
  | .ldImm => rawRB .ldImm
  | .ldInd => rawRW .ldInd
  | .ldIdx => rawRB .ldIdx
  | .stReg => rawRR .stReg
  | .stInd => rawRW .stInd
  | .stIdx => rawRB .stIdx
  | .addReg => rawR .addReg
  | .addImm => rawB .addImm
  | .addInd => rawW .addInd
  | .addIdx => rawB .addIdx
  | .subReg => rawR .subReg
  | .subImm => rawB .subImm
  | .subInd => rawW .subInd
  | .subIdx => rawB .subIdx
  | .cmpReg => rawR .cmpReg
  | .cmpImm => rawB .cmpImm
  | .cmpInd => rawW .cmpInd
  | .cmpIdx => rawB .cmpIdx
  | .inc => rawZ .inc
  | .dec => rawZ .dec
  | .jmp => rawW .jmp
  | .jc => rawW .jc
  | .jnc => rawW .jnc
  | .jp => rawW .jp
  | .jnp => rawW .jnp
  | .jz => rawW .jz
  | .jnz => rawW .jnz
  | .js => rawW .js
  | .jns => rawW .jns
  | .call => rawW .call
  | .ret => rawZ .ret
  | .push => rawR .push
  | .pop => rawR .pop) raw.operands

/-! ## The forms (R61, R77) -/

/-- The form of an operand (R58). -/
inductive Form where
  | reg | imm | ind | idx | label
deriving DecidableEq, Repr

/-- The form an operand is spelled in (R75). -/
def AsmOperand.form : AsmOperand → Form
  | .reg _ => .reg
  | .imm _ => .imm
  | .ind _ => .ind
  | .idx _ => .idx
  | .label _ => .label

/-- The row a mnemonic and its operands' forms select; none for an illegal addressing mode, ST with an immediate among them
(R61, R77, R81, R93). -/
def opOfForms : Mnemonic → List Form → Option Op
  | .nop, [] => some .nop
  | .ld, [.reg, .reg] => some .ldReg
  | .ld, [.reg, .imm] => some .ldImm
  | .ld, [.reg, .ind] => some .ldInd
  | .ld, [.reg, .idx] => some .ldIdx
  | .st, [.reg, .reg] => some .stReg
  | .st, [.reg, .ind] => some .stInd
  | .st, [.reg, .idx] => some .stIdx
  | .add, [.reg] => some .addReg
  | .add, [.imm] => some .addImm
  | .add, [.ind] => some .addInd
  | .add, [.idx] => some .addIdx
  | .sub, [.reg] => some .subReg
  | .sub, [.imm] => some .subImm
  | .sub, [.ind] => some .subInd
  | .sub, [.idx] => some .subIdx
  | .cmp, [.reg] => some .cmpReg
  | .cmp, [.imm] => some .cmpImm
  | .cmp, [.ind] => some .cmpInd
  | .cmp, [.idx] => some .cmpIdx
  | .inc, [] => some .inc
  | .dec, [] => some .dec
  | .jmp, [.label] => some .jmp
  | .jc, [.label] => some .jc
  | .jnc, [.label] => some .jnc
  | .jp, [.label] => some .jp
  | .jnp, [.label] => some .jnp
  | .jz, [.label] => some .jz
  | .jnz, [.label] => some .jnz
  | .js, [.label] => some .js
  | .jns, [.label] => some .jns
  | .call, [.label] => some .call
  | .ret, [] => some .ret
  | .push, [.reg] => some .push
  | .pop, [.reg] => some .pop
  | _, _ => none

/-- The row of a spelled instruction. -/
def AsmInstr.row (i : AsmInstr) : Option Op := opOfForms i.mnemonic (i.operands.map AsmOperand.form)

/-! ## Pass 1 (R79, R80) -/

/-- A bound label. -/
structure Symbol where
  name   : Text
  offset : Nat
  line   : Nat
deriving DecidableEq, Repr

/-- The symbol of a name. -/
def findSymbol (symbols : List Symbol) (name : Text) : Option Symbol := symbols.find? (fun s => s.name == name)

/-- The bytes a label definition takes: its NOP (R79). -/
def labelWidth : Option Text → Nat
  | none => 0
  | some _ => 1

/-- The bytes an instruction takes, known from its syntax alone (R80). One with an illegal mode takes none, as one that did not
parse; no image follows (log 18). -/
def instrWidth : Option AsmInstr → Nat
  | none => 0
  | some i => (i.row.map Op.len).getD 0

/-- The bytes a line takes. -/
def lineWidth (l : AsmLine) : Nat := labelWidth l.label + instrWidth l.instr

/-- The line that takes the running offset past 65536 makes the image too long; it alone is reported (R31, R82; log 18). -/
def tooLongAt (offset : Nat) (l : AsmLine) : List AsmError :=
  if offset ≤ Config.imageMax ∧ Config.imageMax < offset + lineWidth l then [⟨l.number, .imageTooLong⟩] else []

/-- A label definition whose name is already bound is an error that names the first line (R80). -/
def duplicateAt (symbols : List Symbol) (l : AsmLine) : List AsmError :=
  match l.label.bind (findSymbol symbols) with
  | some first => [⟨l.number, .duplicateLabel first.line⟩]
  | none => []

/-- Bind a line's label to the offset, where it has one that is not yet bound (R79, R80). -/
def bindLabel (offset : Nat) (symbols : List Symbol) (l : AsmLine) : List Symbol :=
  match l.label with
  | none => symbols
  | some name => if (findSymbol symbols name).isSome then symbols else symbols ++ [⟨name, offset, l.number⟩]

/-- Walk the lines with a running offset, binding each label to its offset and collecting every error (R80, R82). -/
def passOne : Nat → List Symbol → List AsmLine → List AsmError × List Symbol
  | _, symbols, [] => ([], symbols)
  | offset, symbols, l :: rest =>
    let later := passOne (offset + lineWidth l) (bindLabel offset symbols l) rest
    (duplicateAt symbols l ++ tooLongAt offset l ++ later.1, later.2)

/-! ## Pass 2 (R76, R81) -/

/-- The number an operand stands for; a label is its bound offset (R81). A register is its place in Reg.all. A label past the
code space is no literal out of range (R76): the image is too long (R82; log 18). -/
def operandNumber (symbols : List Symbol) : AsmOperand → Except AsmErrorKind Nat
  | .reg r => .ok (Reg.all.idxOf r)
  | .imm n => .ok n
  | .ind n => .ok n
  | .idx n => .ok n
  | .label name =>
    match findSymbol symbols name with
    | some s => if s.offset < Config.imageMax then .ok s.offset else .error .imageTooLong
    | none => .error .undefinedLabel

/-- The numbers of the operands, or the first error. -/
def operandNumbers (symbols : List Symbol) : List AsmOperand → Except AsmErrorKind (List Nat)
  | [] => .ok []
  | o :: rest =>
    match operandNumber symbols o, operandNumbers symbols rest with
    | .ok n, .ok ns => .ok (n :: ns)
    | .ok _, .error e => .error e
    | .error e, _ => .error e

/-- The instruction a spelled instruction stands for, its labels resolved and its literals checked, or its error: an illegal
mode alone where it has one (R76, R81; log 18). -/
def resolveInstr (symbols : List Symbol) (i : AsmInstr) : Except AsmErrorKind Instr :=
  match i.row with
  | none => .error .illegalMode
  | some op =>
    match operandNumbers symbols i.operands with
    | .error e => .error e
    | .ok numbers =>
      match instrOfRaw ⟨op, numbers⟩ with
      | some instr => .ok instr
      | none => .error .outOfRange

/-- The instructions a line stands for: the NOP of its label, then its own (R79, R81). -/
def resolveLine (symbols : List Symbol) (l : AsmLine) : Except AsmError (List Instr) :=
  let nops := match l.label with
    | none => []
    | some _ => [Instr.nop]
  match l.instr with
  | none => .ok nops
  | some i =>
    match resolveInstr symbols i with
    | .ok instr => .ok (nops ++ [instr])
    | .error kind => .error ⟨l.number, kind⟩

/-- Walk the lines again, collecting the instructions and every error (R81, R82). -/
def passTwo (symbols : List Symbol) : List AsmLine → List AsmError × List Instr
  | [] => ([], [])
  | l :: rest =>
    let later := passTwo symbols rest
    match resolveLine symbols l with
    | .ok instrs => (later.1, instrs ++ later.2)
    | .error e => (e :: later.1, later.2)

/-! ## The image (R82, R83) -/

/-- The bytes of instructions one after another, with no header and no padding (R57, R83). -/
def imageOf (m : CodeMap) (instrs : List Instr) : List Byte := (instrs.map (encodeWith m)).flatten

/-- Assemble parsed lines, given the errors of parsing: an image, or every error of parsing and of both passes and no image
(R82). -/
def assembleLines (m : CodeMap) (parseErrors : List AsmError) (lines : List AsmLine) :
    Except (List AsmError) (List Byte) :=
  let one := passOne 0 [] lines
  let two := passTwo one.2 lines
  let errors := parseErrors ++ one.1 ++ two.1
  if errors.isEmpty then .ok (imageOf m two.2) else .error errors

/-- Assemble a source text under a code map (R71, R82, R83). -/
def assembleWith (m : CodeMap) (source : Text) : Except (List AsmError) (List Byte) :=
  let parsed := parseSource source
  assembleLines m parsed.1 parsed.2

/-- Assemble a source text under the default code map. -/
def assemble (source : Text) : Except (List AsmError) (List Byte) := assembleWith CodeMap.standard source

end Sys2Proof.Machine
end

