-- ==== Sys2Proof/Machine/Port.lean ====
section
/-! DEFINITION. The host port: load, reset, step, run, readMem, writeMem, snapshot, the fault codes and records, and the
flags byte. Spec: 60_exceptions R132, R139, R152 to R158, 70_reset R161 to R164, 10_state R25. The host acts only between
steps (R52, R159); each operation is one function of the state. -/

namespace Sys2Proof.Machine

/-! ## Outcomes (R132, R139) -/

/-- The code of a fault; EndOfImage is no fault and has none (R132). -/
def faultCode : Fault → Option Nat
  | .endOfImage => none
  | .invalidOpcode _ _ => some 1
  | .invalidRegister _ _ => some 2
  | .fetchOutsideImage _ => some 3
  | .truncatedInstruction _ _ => some 4

/-- The record `{pc, byte}` of a fault; for FetchOutsideImage the byte is absent (R139). -/
def faultInfo : Fault → Option (Addr × Option Byte)
  | .endOfImage => none
  | .invalidOpcode pc b => some (pc, some b)
  | .invalidRegister pc b => some (pc, some b)
  | .fetchOutsideImage pc => some (pc, none)
  | .truncatedInstruction pc b => some (pc, some b)

/-! ## Load and reset (R152, R153, R161) -/

/-- `load(bytes)`: sets the image and clears ready; a longer image is refused and nothing changes (R152, R163). -/
def portLoad (bytes : List Byte) (s : State) : Answer :=
  if imageWf bytes then .next { s with image := bytes, ready := false } else .refused .imageTooLong

/-- The values the five registers draw at a reset: any byte each (R16, R161; REG_RESET of R5). -/
structure RegDraws where
  a : Byte
  b : Byte
  c : Byte
  x : Byte
  y : Byte
deriving DecidableEq, Repr

/-- `reset()`: flags cleared, memory zeroed, pc at ENTRY, registers drawn, ready; the image stays (R161, R163). The
parameter IO_INTERCEPT and the model's own two fields stay too (log 2, 3, 4). -/
def portReset (d : RegDraws) (s : State) : State :=
  { s with
    a := d.a, b := d.b, c := d.c, x := d.x, y := d.y
    pc := Config.entry
    flags := { c := false, p := false, z := false, s := false }
    mem := []
    ready := true }

/-! ## Step and run (R154, R155) -/

/-- `step()` (R154). -/
def portStep (s : State) : Answer := step s

/-- What `run(N)` returns, with the state it leaves: the instructions executed and the outcome that stopped it, if one did
(R155). -/
structure RunResult where
  count : Nat
  stop  : Option Fault
  state : State
deriving DecidableEq, Repr

/-- The loop of `run`, with fuel steps left and k executed (R155). -/
def runLoop : Nat → Nat → State → Except Refusal RunResult
  | 0, k, s => .ok ⟨k, none, s⟩
  | fuel + 1, k, s =>
    match step s with
    | .next t => runLoop fuel (k + 1) t
    | .fault f => .ok ⟨k, some f, s⟩
    | .refused r => .error r

/-- `run(N)`: refused when not ready, `run(0)` included (R155, R162). -/
def portRun (n : Nat) (s : State) : Except Refusal RunResult :=
  if s.ready then runLoop n 0 s else .error .notReady

/-! ## Memory and snapshot (R156, R157, R158) -/

/-- `readMem(a)`: never intercepted, changes nothing (R156). -/
def portReadMem (a : Addr) (s : State) : Byte := loadByte a s

/-- `writeMem(a, v)`: any byte, never intercepted (R157). -/
def portWriteMem (a : Addr) (v : Byte) (s : State) : State := storeByte a v s

/-- What `snapshot()` returns; SP is not part of it (R158). -/
structure Snapshot where
  a : Byte
  b : Byte
  c : Byte
  x : Byte
  y : Byte
  pc : Addr
  flags : Flags
deriving DecidableEq, Repr

/-- `snapshot()` (R158). -/
def portSnapshot (s : State) : Snapshot := ⟨s.a, s.b, s.c, s.x, s.y, s.pc, s.flags⟩

/-- The flags as one status byte: C in bit 0, P in bit 1, Z in bit 2, S in bit 3, 0 above (R25). -/
def flagsByte (f : Flags) : Byte :=
  BitVec.ofNat 8 (f.c.toNat + 2 * f.p.toNat + 4 * f.z.toNat + 8 * f.s.toNat)

end Sys2Proof.Machine
end

