-- ==== Sys2Proof/Safety.lean ====
section
/-! DEFINITION. The terms claims are stated in: the invariant of the state, how a run ends (60_exceptions R160), and what one
state keeps of another. -/

namespace Sys2Proof.Machine

/-- The invariant: memory is in its canonical form (R29), the image fits the code space (R31), and every observed event is
at a host-reserved I/O byte (R47). -/
structure State.Inv (s : State) : Prop where
  memory : s.mem.wf = true
  image  : imageWf s.image = true
  events : ∀ e ∈ s.ioEvents, isHostIo e.addr = true

/-- Before the first reset: not ready, and the image empty until the first load; everything else is unspecified (R162). -/
structure PowerOn (s : State) : Prop where
  notReady : s.ready = false
  noImage  : s.image = []

/-- `n` steps that all returned Ok lead from s to t. -/
def StepsTo : Nat → State → State → Prop
  | 0, s, t => s = t
  | n + 1, s, t => ∃ u, step s = .next u ∧ StepsTo n u t

/-- A run from s has ended normally in t: some steps lead to t, and the next returns EndOfImage (R160). -/
def EndedNormally (s t : State) : Prop := s.ready = true ∧ ∃ n, StepsTo n s t ∧ step t = .fault .endOfImage

/-- A run from s has faulted in t: some steps lead to t, and the next returns one of the four faults (R132, R160). -/
def Faulted (s t : State) : Prop :=
  s.ready = true ∧ ∃ n f, StepsTo n s t ∧ step t = .fault f ∧ (faultCode f).isSome = true

/-- A safe run: no state that steps reach from s faults. -/
def SafeRun (s : State) : Prop := ∀ t, ¬ Faulted s t

/-- Every register of t is as in s. -/
def KeepsRegs (s t : State) : Prop := ∀ q, readReg q t = readReg q s

/-- Every register of t but r is as in s. -/
def KeepsRegsBut (r : Reg) (s t : State) : Prop := ∀ q, q ≠ r → readReg q t = readReg q s

/-- Every byte of data memory of t reads as in s. -/
def KeepsBytes (s t : State) : Prop := ∀ a, loadByte a t = loadByte a s

/-- Every byte of data memory of t outside the listed addresses reads as in s. -/
def KeepsBytesBut (stored : List Addr) (s t : State) : Prop := ∀ a, a ∉ stored → loadByte a t = loadByte a s

/-- The image, the ready mark and the parameter IO_INTERCEPT of t are those of s: no instruction changes them (R30, R55,
R162). -/
structure KeepsPlatform (s t : State) : Prop where
  image       : t.image = s.image
  ready       : t.ready = s.ready
  ioIntercept : t.ioIntercept = s.ioIntercept

/-- No free value was drawn and no event recorded between s and t (the model's own two fields, log 3 and 4). -/
structure KeepsIo (s t : State) : Prop where
  ioDraws  : t.ioDraws = s.ioDraws
  ioEvents : t.ioEvents = s.ioEvents

/-! ## Encodings -/

/-- The assigned opcode bytes, written out from the table of R61. -/
def assignedOpcodes : List Byte :=
  [0x00#8, 0x10#8, 0x11#8, 0x12#8, 0x13#8, 0x14#8, 0x16#8, 0x17#8] ++
  [0x20#8, 0x21#8, 0x22#8, 0x23#8, 0x24#8, 0x25#8, 0x26#8, 0x27#8, 0x28#8, 0x29#8, 0x2A#8, 0x2B#8, 0x2C#8, 0x2D#8] ++
  [0x30#8, 0x38#8, 0x39#8, 0x3A#8, 0x3B#8, 0x3C#8, 0x3D#8, 0x3E#8, 0x3F#8, 0x40#8, 0x41#8, 0x42#8, 0x43#8]

/-- An instruction's bytes are these; they decode to it whatever follows; every proper beginning of them is a truncated
instruction that names the opcode (R57, R136). -/
structure EncodesAs (i : Instr) (bytes : List Byte) : Prop where
  encodes   : encode i = bytes
  decodes   : ∀ rest, decode (bytes ++ rest) = .ok (i, rest)
  truncates : ∀ k, 0 < k → k < bytes.length → decode (bytes.take k) = .error (.truncated (bytes.headD 0#8))

/-- The bytes before, an id byte above 0x04 and the bytes after are rejected for that id (R59, R134). -/
def RejectsId (before after : List Byte) : Prop :=
  ∀ b : Byte, 5 ≤ b.toNat → ∀ rest, decode (before ++ b :: (after ++ rest)) = .error (.invalidRegister b)

/-- The bytes lie in the image at pc; they wrap from 0xFFFF to 0x0000 only where the image is full (R19, R67). -/
structure CodeAt (s : State) (bytes : List Byte) : Prop where
  inside : s.image.length = 65536 ∨ s.pc.toNat + bytes.length ≤ s.image.length
  bytes  : ∀ k, k < bytes.length → s.image[(s.pc.toNat + k) % 65536]? = bytes[k]?

/-- The bytes in reg fields, in byte order, of a row's operand bytes (R60). -/
def regFieldBytes (op : Op) (operands : List Byte) : List Byte :=
  match op.format with
  | .Z => []
  | .I => []
  | .M => []
  | .X => []
  | .L => []
  | .R => operands.take 1
  | .RI => operands.take 1
  | .RM => operands.take 1
  | .RX => operands.take 1
  | .RR => operands.take 2

/-! ## The operands of an instruction, and what the assembler's source spells (R58, R61, R75, R77, R81) -/

end Sys2Proof.Machine

namespace Sys2Proof

/-- A register's number: its place in the order the spec lists the registers in (R13, R59). -/
def Reg.number : Reg → Nat
  | .A => 0
  | .B => 1
  | .C => 2
  | .X => 3
  | .Y => 4

/-- The numbers in an instruction's fields, in the order of its format (R58, R60). -/
def Instr.fieldNumbers : Instr → List Nat
  | .nop => []
  | .ldReg r r2 => [r.number, r2.number]
  | .ldImm r n => [r.number, n.toNat]
  | .ldInd r addr => [r.number, addr.toNat]
  | .ldIdx r off => [r.number, off.toNat]
  | .stReg r r2 => [r.number, r2.number]
  | .stInd r addr => [r.number, addr.toNat]
  | .stIdx r off => [r.number, off.toNat]
  | .addReg r => [r.number]
  | .addImm n => [n.toNat]
  | .addInd addr => [addr.toNat]
  | .addIdx off => [off.toNat]
  | .subReg r => [r.number]
  | .subImm n => [n.toNat]
  | .subInd addr => [addr.toNat]
  | .subIdx off => [off.toNat]
  | .cmpReg r => [r.number]
  | .cmpImm n => [n.toNat]
  | .cmpInd addr => [addr.toNat]
  | .cmpIdx off => [off.toNat]
  | .inc => []
  | .dec => []
  | .jmp tgt => [tgt.toNat]
  | .jc tgt => [tgt.toNat]
  | .jnc tgt => [tgt.toNat]
  | .jp tgt => [tgt.toNat]
  | .jnp tgt => [tgt.toNat]
  | .jz tgt => [tgt.toNat]
  | .jnz tgt => [tgt.toNat]
  | .js tgt => [tgt.toNat]
  | .jns tgt => [tgt.toNat]
  | .call tgt => [tgt.toNat]
  | .ret => []
  | .push r => [r.number]
  | .pop r => [r.number]

/-- The mnemonic of a row, from the assembly column of R61. -/
def Op.mnemonic : Op → Machine.Mnemonic
  | .nop => .nop
  | .ldReg | .ldImm | .ldInd | .ldIdx => .ld
  | .stReg | .stInd | .stIdx => .st
  | .addReg | .addImm | .addInd | .addIdx => .add
  | .subReg | .subImm | .subInd | .subIdx => .sub
  | .cmpReg | .cmpImm | .cmpInd | .cmpIdx => .cmp
  | .inc => .inc
  | .dec => .dec
  | .jmp => .jmp
  | .jc => .jc
  | .jnc => .jnc
  | .jp => .jp
  | .jnp => .jnp
  | .jz => .jz
  | .jnz => .jnz
  | .js => .js
  | .jns => .jns
  | .call => .call
  | .ret => .ret
  | .push => .push
  | .pop => .pop

/-- The form that is spelled for a field (R58, R75). -/
def Field.form : Field → Machine.Form
  | .reg => .reg
  | .imm8 => .imm
  | .addr16 => .ind
  | .off8 => .idx
  | .tgt16 => .label

end Sys2Proof

namespace Sys2Proof.Machine

/-- The number a spelled operand stands for: a register's number, a literal's value, a label's bound offset (R75, R81). -/
def StandsFor (symbols : List Symbol) (operand : AsmOperand) (n : Nat) : Prop :=
  match operand with
  | .reg r => n = r.number
  | .imm v => n = v
  | .ind v => n = v
  | .idx v => n = v
  | .label name => ∃ sym, findSymbol symbols name = some sym ∧ n = sym.offset

/-! ## What an instruction may write -/

/-- The registers an instruction writes (R14). -/
def destRegs : Instr → List Reg
  | .ldReg r _ => [r]
  | .ldImm r _ => [r]
  | .ldInd r _ => [r]
  | .ldIdx r _ => [r]
  | .stReg _ r2 => [r2]
  | .addReg _ => [.A]
  | .addImm _ => [.A]
  | .addInd _ => [.A]
  | .addIdx _ => [.A]
  | .subReg _ => [.A]
  | .subImm _ => [.A]
  | .subInd _ => [.A]
  | .subIdx _ => [.A]
  | .inc => [.A]
  | .dec => [.A]
  | .pop r => [r]
  | .stInd _ _ => []
  | .stIdx _ _ => []
  | .cmpReg _ => []
  | .cmpImm _ => []
  | .cmpInd _ => []
  | .cmpIdx _ => []
  | .jmp _ => []
  | .jc _ => []
  | .jnc _ => []
  | .jp _ => []
  | .jnp _ => []
  | .jz _ => []
  | .jnz _ => []
  | .js _ => []
  | .jns _ => []
  | .call _ => []
  | .ret => []
  | .push _ => []
  | .nop => []

/-- The addresses an instruction stores to, in the state it executes in (R44). -/
def storedAt (i : Instr) (s : State) : List Addr :=
  match i with
  | .stInd _ addr => [addr]
  | .stIdx _ off => [eaIdx off s]
  | .push _ => [Config.spHiAddr, Config.spLoAddr, spRead s - 1#16]
  | .pop _ => [Config.spHiAddr, Config.spLoAddr]
  | .call _ => [Config.spHiAddr, Config.spLoAddr, spRead s - 2#16, spRead s - 2#16 + 1#16]
  | .ret => [Config.spHiAddr, Config.spLoAddr]
  | .ldReg _ _ => []
  | .ldImm _ _ => []
  | .ldInd _ _ => []
  | .ldIdx _ _ => []
  | .stReg _ _ => []
  | .addReg _ => []
  | .addImm _ => []
  | .addInd _ => []
  | .addIdx _ => []
  | .subReg _ => []
  | .subImm _ => []
  | .subInd _ => []
  | .subIdx _ => []
  | .cmpReg _ => []
  | .cmpImm _ => []
  | .cmpInd _ => []
  | .cmpIdx _ => []
  | .inc => []
  | .dec => []
  | .jmp _ => []
  | .jc _ => []
  | .jnc _ => []
  | .jp _ => []
  | .jnp _ => []
  | .jz _ => []
  | .jnz _ => []
  | .js _ => []
  | .jns _ => []
  | .nop => []

/-- The five mnemonics that write flags (R22). -/
def writesFlags (i : Instr) : Bool :=
  i.op ∈ [.addReg, .addImm, .addInd, .addIdx, .subReg, .subImm, .subInd, .subIdx, .cmpReg, .cmpImm, .cmpInd, .cmpIdx,
    .inc, .dec]

/-- The instructions that may set pc: the jumps, CALL and RET (R18). -/
def setsPc (i : Instr) : Bool :=
  i.op ∈ [.jmp, .jc, .jnc, .jp, .jnp, .jz, .jnz, .js, .jns, .call, .ret]

/-! ## The effects of the families, in numbers -/

/-- t is s with register r holding v, and nothing else changed. -/
structure WritesOnlyReg (r : Reg) (v : Byte) (s t : State) : Prop where
  value    : readReg r t = v
  others   : KeepsRegsBut r s t
  pc       : t.pc = s.pc
  flags    : t.flags = s.flags
  bytes    : KeepsBytes s t
  platform : KeepsPlatform s t
  io       : KeepsIo s t

/-- A becomes (A + n) mod 256, all four flags follow the result and the carry, and nothing else changes (R94, R95). -/
structure AddsToA (n : Byte) (s t : State) : Prop where
  sum      : t.a.toNat = (s.a.toNat + n.toNat) % 256
  carry    : t.flags.c = decide (s.a.toNat + n.toNat > 255)
  parity   : t.flags.p = decide (t.a.toNat % 2 = 1)
  sign     : t.flags.s = decide (128 ≤ t.a.toNat)
  zero     : t.flags.z = decide (t.a.toNat = 0)
  others   : KeepsRegsBut .A s t
  pc       : t.pc = s.pc
  bytes    : KeepsBytes s t
  platform : KeepsPlatform s t
  io       : KeepsIo s t

/-- A becomes (A - n) mod 256, C is the borrow A <u n, the other flags follow the result, and nothing else changes (R94,
R95). -/
structure SubtractsFromA (n : Byte) (s t : State) : Prop where
  difference : (t.a.toNat : Int) = ((s.a.toNat : Int) - (n.toNat : Int)) % 256
  borrow     : t.flags.c = decide (s.a.toNat < n.toNat)
  parity     : t.flags.p = decide (t.a.toNat % 2 = 1)
  sign       : t.flags.s = decide (128 ≤ t.a.toNat)
  zero       : t.flags.z = decide (t.a.toNat = 0)
  others     : KeepsRegsBut .A s t
  pc         : t.pc = s.pc
  bytes      : KeepsBytes s t
  platform   : KeepsPlatform s t
  io         : KeepsIo s t

/-- All four flags compare A with n by CMP's own rule, A is not written, and nothing else changes (R106). -/
structure ComparesA (n : Byte) (s t : State) : Prop where
  less     : t.flags.c = decide (s.a.toNat < n.toNat)
  parity   : t.flags.p = decide (s.a.toNat % 2 = n.toNat % 2)
  sign     : t.flags.s = decide (s.a.toInt < 0 ↔ n.toInt < 0)
  zero     : t.flags.z = decide (s.a.toNat = n.toNat)
  regs     : KeepsRegs s t
  pc       : t.pc = s.pc
  bytes    : KeepsBytes s t
  platform : KeepsPlatform s t
  io       : KeepsIo s t

/-- pc becomes the target when the condition holds and stays at next otherwise; nothing else changes (R112, R113). -/
structure JumpsIf (cond : Bool) (tgt : Addr) (s t : State) : Prop where
  pc       : t.pc = if cond then tgt else s.pc
  regs     : KeepsRegs s t
  flags    : t.flags = s.flags
  bytes    : KeepsBytes s t
  platform : KeepsPlatform s t
  io       : KeepsIo s t

/-- The events a write adds to what the host has observed (R47). -/
def eventsOf (a : Addr) (v : Byte) (s : State) : List IoEvent := if intercepted a s then [⟨a, v⟩] else []

/-- v is stored at a, as an event where the host intercepts, and nothing else changes (R36, R47). -/
structure StoresOnly (a : Addr) (v : Byte) (s t : State) : Prop where
  stored   : loadByte a t = v
  others   : KeepsBytesBut [a] s t
  events   : t.ioEvents = s.ioEvents ++ eventsOf a v s
  draws    : t.ioDraws = s.ioDraws
  regs     : KeepsRegs s t
  pc       : t.pc = s.pc
  flags    : t.flags = s.flags
  platform : KeepsPlatform s t

end Sys2Proof.Machine
end

