-- ==== Sys2Proof/Certificates/Slice0/Obligations.lean ====
section
/-! DEFINITION. The statements for the provers. Each docstring names the rule of spec/ it formalises. The premise
s.mem.wf = true, where it stands, is the invariant State.Inv's own (memory in its canonical form), which a step keeps. -/

open Sys2Proof Sys2Proof.Machine

/-! ## Encoding and decoding -/

/-- R71, R60, R61: under every injective code map, decoding an instruction's bytes gives the instruction back with every
operand, whatever follows. -/
def Obligations.DecodeEncodeRoundTrip : Prop :=
  ∀ m : CodeMap, m.wf = true → ∀ (i : Instr) (rest : List Byte),
    decodeWith m (encodeWith m i ++ rest) = .ok (i, rest)

/-- R57, R60, R61: bytes that decode are the encoding of what they decode to, followed by the rest: no byte is ignored. -/
def Obligations.DecodedBytesAreTheEncoding : Prop :=
  ∀ (m : CodeMap) (bytes rest : List Byte) (i : Instr),
    decodeWith m bytes = .ok (i, rest) → bytes = encodeWith m i ++ rest

/-- R60, R61: words written out from the opcode map decode to the instructions they stand for, one or more of each family. -/
def Obligations.SpecWordsDecode : Prop :=
  decode [0x00#8] = .ok (.nop, []) ∧
  decode [0x10#8, 0x00#8, 0x01#8] = .ok (.ldReg .A .B, []) ∧
  decode [0x12#8, 0x02#8, 0x12#8, 0x34#8] = .ok (.ldInd .C 0x1234#16, []) ∧
  decode [0x17#8, 0x01#8, 0x05#8] = .ok (.stIdx .B 0x05#8, []) ∧
  decode [0x22#8, 0x40#8, 0x00#8] = .ok (.addInd 0x4000#16, []) ∧
  decode [0x25#8, 0x10#8] = .ok (.subImm 0x10#8, []) ∧
  decode [0x2B#8, 0x01#8] = .ok (.cmpIdx 0x01#8, []) ∧
  decode [0x3B#8, 0x00#8, 0x50#8] = .ok (.jnp 0x0050#16, []) ∧
  decode [0x40#8, 0x01#8, 0x00#8] = .ok (.call 0x0100#16, []) ∧
  decode [0x43#8, 0x04#8] = .ok (.pop .Y, [])

/-- R68, R133: exactly the bytes that are not among the 35 assigned opcodes are rejected as an opcode, as InvalidOpcode. -/
def Obligations.UnassignedOpcodesAreRejected : Prop :=
  ∀ (b : Byte) (rest : List Byte),
    decode (b :: rest) = .error (.invalidOpcode b) ↔ b ∉ assignedOpcodes

/-- R57, R60, R61: an instruction's bytes are as many as Len of its row, which is its format's length (log 15 says where the
list of R63 differs), and every proper beginning of them is a truncated instruction. -/
def Obligations.LengthIsFixedByTheOpcode : Prop :=
  ∀ i : Instr, (encode i).length = i.op.len ∧ i.op.len = i.op.format.length ∧ 1 ≤ i.op.len ∧ i.op.len ≤ 4 ∧
    ∀ k, 0 < k → k < i.op.len → decode ((encode i).take k) = .error (.truncated (opcodeByte i.op))

/-- R59: the id bytes 0x00 to 0x04 name A, B, C, X, Y, and no other byte names a register. -/
def Obligations.RegisterIdBytes : Prop :=
  regOfByte CodeMap.standard 0x00#8 = some .A ∧ regOfByte CodeMap.standard 0x01#8 = some .B ∧
  regOfByte CodeMap.standard 0x02#8 = some .C ∧ regOfByte CodeMap.standard 0x03#8 = some .X ∧
  regOfByte CodeMap.standard 0x04#8 = some .Y ∧
  (∀ b : Byte, 5 ≤ b.toNat → regOfByte CodeMap.standard b = none) ∧
  ∀ (b : Byte) (k : Reg → Decoded), 5 ≤ b.toNat →
    withReg CodeMap.standard b k = .error (.invalidRegister b)

/-- R62: the form in bits 1:0 of LD, ST, ADD, SUB, CMP; the mnemonic in bits 7:2; the conditional jumps as
0x38 | (flag << 1) | negated. -/
def Obligations.OpcodeMapIsRegular : Prop :=
  [Op.ldReg, .stReg, .addReg, .subReg, .cmpReg].map opcodeByte = [0x10#8, 0x14#8, 0x20#8, 0x24#8, 0x28#8] ∧
  [Op.ldImm, .addImm, .subImm, .cmpImm].map opcodeByte = [0x10#8, 0x20#8, 0x24#8, 0x28#8].map (· ||| 0b01#8) ∧
  [Op.ldInd, .stInd, .addInd, .subInd, .cmpInd].map opcodeByte =
    [0x10#8, 0x14#8, 0x20#8, 0x24#8, 0x28#8].map (· ||| 0b10#8) ∧
  [Op.ldIdx, .stIdx, .addIdx, .subIdx, .cmpIdx].map opcodeByte =
    [0x10#8, 0x14#8, 0x20#8, 0x24#8, 0x28#8].map (· ||| 0b11#8) ∧
  [Op.jc, .jp, .jz, .js].map opcodeByte = [0#8, 1#8, 2#8, 3#8].map (fun f : Byte => 0x38#8 ||| (f <<< 1)) ∧
  [Op.jnc, .jnp, .jnz, .jns].map opcodeByte = [0#8, 1#8, 2#8, 3#8].map (fun f : Byte => 0x38#8 ||| (f <<< 1) ||| 1#8)

/-- R58, R76, R77: a raw instruction is an instruction exactly when its operands fit the fields of its format; then it is one
of the same row, and its fields hold the given numbers, in the order given. -/
def Obligations.RawInstructionsThatFit : Prop :=
  ∀ raw : RawInstr, (raw.wf = true ↔ (instrOfRaw raw).isSome = true) ∧
    ∀ i, instrOfRaw raw = some i → i.op = raw.op ∧ i.fieldNumbers = raw.operands

/-! ## The step -/

/-- R67, R18, R12: when a ready machine's bytes at pc decode to i, the step is exec of i with pc already at next, the
address after its bytes modulo 65536. -/
def Obligations.StepRunsTheDecodedInstruction : Prop :=
  ∀ (s : State) (i : Instr) (rest : List Byte), s.ready = true → fetchStop s = none →
    decode (fetchWindow s) = .ok (i, rest) →
    step s = exec i (setPc (BitVec.ofNat 16 (s.pc.toNat + i.op.len)) s)

/-- R67, R19, R71: under every injective code map, a ready machine whose image holds i's bytes at pc (wrapping in a full
image) runs i with pc at next. -/
def Obligations.StepRunsTheInstructionInTheImage : Prop :=
  ∀ (m : CodeMap), m.wf = true → ∀ (s : State) (i : Instr), s.ready = true → imageWf s.image = true →
    CodeAt s (encodeWith m i) →
    stepWith m s = exec i (setPc (BitVec.ofNat 16 (s.pc.toNat + i.op.len)) s)

/-- R135, R137: of a ready machine with L < 65536, pc = L at the start of a step gives EndOfImage, which is no fault and
has no code, and pc > L gives FetchOutsideImage; with L = 65536 no address gives either. -/
def Obligations.PastTheImageEnd : Prop :=
  faultCode .endOfImage = none ∧
  ∀ s : State, s.ready = true →
    (s.image.length < 65536 → s.pc.toNat = s.image.length → step s = .fault .endOfImage) ∧
    (s.image.length < 65536 → s.image.length < s.pc.toNat → step s = .fault (.fetchOutsideImage s.pc)) ∧
    (s.image.length = 65536 → step s ≠ .fault (.fetchOutsideImage s.pc) ∧ step s ≠ .fault .endOfImage)

/-- R133: a ready step whose opcode byte, in the image, is not one of the 35 assigned bytes answers InvalidOpcode. -/
def Obligations.InvalidOpcodeFault : Prop :=
  ∀ (s : State) (b : Byte), s.ready = true → imageWf s.image = true → CodeAt s [b] → b ∉ assignedOpcodes →
    step s = .fault (.invalidOpcode s.pc b)

/-- R136: a ready step with L < 65536, pc < L, a valid opcode at pc and pc + Len(op) > L answers TruncatedInstruction. -/
def Obligations.TruncatedInstructionFault : Prop :=
  ∀ (s : State) (op : Op), s.ready = true → s.image.length < 65536 → s.image[s.pc.toNat]? = some (opcodeByte op) →
    s.image.length < s.pc.toNat + op.len → step s = .fault (.truncatedInstruction s.pc (opcodeByte op))

/-- R134: a ready step whose opcode is valid and whose bytes all lie in the image answers InvalidRegister for the first reg
field byte, in byte order, that is above 0x04. -/
def Obligations.InvalidRegisterFault : Prop :=
  ∀ (s : State) (op : Op) (operands : List Byte) (bad : Byte), s.ready = true → imageWf s.image = true →
    operands.length + 1 = op.len → CodeAt s (opcodeByte op :: operands) →
    (regFieldBytes op operands).find? (fun b => decide (4 < b.toNat)) = some bad →
    step s = .fault (.invalidRegister s.pc bad)

/-- R154, R155, R162: a machine that is not ready refuses step and run, and so does any machine, ready or not before, after
a load it accepted. That run(0) is refused too is the model's reading (log 6). -/
def Obligations.NotReadyIsRefused : Prop :=
  ∀ (s : State) (n : Nat),
    (s.ready = false → portStep s = .refused .notReady ∧ portRun n s = .error .notReady) ∧
    ∀ bytes t, portLoad bytes s = .next t → portStep t = .refused .notReady ∧ portRun n t = .error .notReady

/-- R132, R138, R139: a ready step answers Ok, or EndOfImage, or one of the four faults, whose record holds the unchanged
pc and a byte unless it is FetchOutsideImage; a step that is not ready is refused. -/
def Obligations.EveryStepHasOneOutcome : Prop :=
  ∀ s : State,
    (s.ready = false ∧ step s = .refused .notReady) ∨
    (s.ready = true ∧
      ((∃ t, step s = .next t) ∨ step s = .fault .endOfImage ∨
        ∃ f code byte, step s = .fault f ∧ faultCode f = some code ∧ 1 ≤ code ∧ code ≤ 4 ∧
          faultInfo f = some (s.pc, byte) ∧ (byte = none ↔ code = 3)))

/-- R140: the checks of a ready step in their order: the bounds first, then the opcode, then truncation, then register
ids. With a valid opcode at pc, a missing operand byte is reported whatever the register ids are. -/
def Obligations.ChecksRunInOrder : Prop :=
  ∀ s : State, s.ready = true → s.image.length < 65536 →
    (s.pc.toNat = s.image.length → step s = .fault .endOfImage) ∧
    (s.image.length < s.pc.toNat → step s = .fault (.fetchOutsideImage s.pc)) ∧
    (∀ b, s.image[s.pc.toNat]? = some b →
      (opOfByte CodeMap.standard b = none → step s = .fault (.invalidOpcode s.pc b)) ∧
      (∀ op, opOfByte CodeMap.standard b = some op →
        (s.image.length < s.pc.toNat + op.len ↔ step s = .fault (.truncatedInstruction s.pc b)) ∧
        (s.pc.toNat + op.len ≤ s.image.length →
          (∃ t, step s = .next t) ∨ ∃ bad, 4 < bad.toNat ∧ step s = .fault (.invalidRegister s.pc bad))))

/-- R19, R67: in a full image every address is in the image: no step ends at the image end, is outside it or is truncated. -/
def Obligations.FullImageHasNoEnd : Prop :=
  ∀ s : State, s.ready = true → s.image.length = 65536 →
    (∃ t, step s = .next t) ∨ (∃ b, step s = .fault (.invalidOpcode s.pc b)) ∨
      ∃ b, step s = .fault (.invalidRegister s.pc b)

/-- R141: no instruction faults when it executes, in any state: overflow, wrapping addresses, a wrapping stack and every
jump target included. -/
def Obligations.ExecutionNeverFaults : Prop :=
  ∀ (i : Instr) (s : State), ∃ t, exec i s = .next t ∧ KeepsPlatform s t

/-- R143: a step that faulted, or ended at the image end, does so again: a run from the same state executes nothing and
stops the same way. -/
def Obligations.FaultsRepeat : Prop :=
  ∀ (s : State) (f : Fault) (n : Nat), s.ready = true → step s = .fault f → portRun (n + 1) s = .ok ⟨0, some f, s⟩

/-! ## Invariants -/

/-- R29, R31, R47: every step keeps the invariant: canonical memory, an image that fits, events only at host-reserved I/O
bytes. From every state, not only those a run reaches. -/
def Obligations.StepKeepsInvariant : Prop :=
  ∀ s t : State, s.Inv → step s = .next t → t.Inv

/-- R161: the invariant holds after every reset of a state whose image fits and whose events are host-reserved I/O bytes,
and in State.reset, the model's own state after reset (its zero registers are the model's choice, log 1). -/
def Obligations.ResetHasInvariant : Prop :=
  State.reset.Inv ∧
  ∀ (d : RegDraws) (s : State), imageWf s.image = true → (∀ e ∈ s.ioEvents, isHostIo e.addr = true) →
    (portReset d s).Inv

/-- R31, R152, R157: the host's operations keep the invariant. -/
def Obligations.HostOperationsKeepInvariant : Prop :=
  ∀ s : State, s.Inv →
    (∀ bytes t, portLoad bytes s = .next t → t.Inv) ∧ (∀ d, (portReset d s).Inv) ∧
    (∀ a v, (portWriteMem a v s).Inv) ∧ (∀ n r, portRun n s = .ok r → r.state.Inv)

/-- R30, R55, R170: no step changes the image, so no store is ever seen by a fetch; nor the ready mark or the parameter. -/
def Obligations.NoStepReachesTheImage : Prop :=
  ∀ s t : State, step s = .next t → KeepsPlatform s t

/-! ## Reset and the host port -/

/-- R161, R163, R16, R20, R24, R29: reset clears the flags, zeroes every byte of memory (so SP is 0x0000), sets pc to
0x0000, gives the registers any drawn values, sets ready, and leaves the image. -/
def Obligations.ResetOperation : Prop :=
  ∀ (d : RegDraws) (s : State),
    (portReset d s).flags = ⟨false, false, false, false⟩ ∧ (∀ a, loadByte a (portReset d s) = 0x00#8) ∧
    spRead (portReset d s) = 0x0000#16 ∧ (portReset d s).pc = 0x0000#16 ∧
    readReg .A (portReset d s) = d.a ∧ readReg .B (portReset d s) = d.b ∧ readReg .C (portReset d s) = d.c ∧
    readReg .X (portReset d s) = d.x ∧ readReg .Y (portReset d s) = d.y ∧
    (portReset d s).ready = true ∧ (portReset d s).image = s.image

/-- Load sets the image and clears ready, and an image longer than 65536 bytes is refused (R152). That it keeps every register,
flag and byte of memory follows R152 and R163 where R162 calls them unspecified, and that it keeps pc is in none of these:
what a load leaves is the model's choice (log 11). -/
def Obligations.LoadOperation : Prop :=
  ∀ (bytes : List Byte) (s : State),
    (65536 < bytes.length → portLoad bytes s = .refused .imageTooLong) ∧
    (bytes.length ≤ 65536 → ∃ t, portLoad bytes s = .next t ∧ t.image = bytes ∧ t.ready = false ∧
      KeepsRegs s t ∧ t.pc = s.pc ∧ t.flags = s.flags ∧ KeepsBytes s t)

/-- R155: run(N) of a ready machine executes as many steps as it says, at most N; it stops short of N exactly at a step
that did not return Ok, which is not counted; run(0) executes nothing. -/
def Obligations.RunCountsExecutedInstructions : Prop :=
  ∀ (n : Nat) (s : State), s.ready = true →
    portRun 0 s = .ok ⟨0, none, s⟩ ∧
    ∃ r, portRun n s = .ok r ∧ StepsTo r.count s r.state ∧ r.count ≤ n ∧
      (r.stop = none ↔ r.count = n) ∧ (∀ f, r.stop = some f → step r.state = .fault f)

/-- R156, R157: writeMem sets one byte of data memory and nothing else, is never intercepted, cannot reach the image, and is
read back by readMem, which is never intercepted either. -/
def Obligations.HostMemoryAccess : Prop :=
  ∀ (s : State) (a : Addr) (v : Byte), s.mem.wf = true →
    portReadMem a s = loadByte a s ∧ portReadMem a (portWriteMem a v s) = v ∧
    (∀ b, b ≠ a → portReadMem b (portWriteMem a v s) = portReadMem b s) ∧
    KeepsRegs s (portWriteMem a v s) ∧ (portWriteMem a v s).pc = s.pc ∧ (portWriteMem a v s).flags = s.flags ∧
    KeepsPlatform s (portWriteMem a v s) ∧ KeepsIo s (portWriteMem a v s)

/-- R158, R25: snapshot returns the registers, pc and the flags; the status byte holds C, P, Z, S in bits 0 to 3 and 0
above. -/
def Obligations.SnapshotAndStatusByte : Prop :=
  ∀ s : State,
    portSnapshot s = ⟨readReg .A s, readReg .B s, readReg .C s, readReg .X s, readReg .Y s, s.pc, s.flags⟩ ∧
    (flagsByte s.flags).getLsbD 0 = s.flags.c ∧ (flagsByte s.flags).getLsbD 1 = s.flags.p ∧
    (flagsByte s.flags).getLsbD 2 = s.flags.z ∧ (flagsByte s.flags).getLsbD 3 = s.flags.s ∧
    (flagsByte s.flags).toNat < 16

/-! ## Data access -/

/-- R35, R47: a read answers the stored byte and changes nothing, but under IO_INTERCEPT = oracle at 0x0FF2 to 0x0FFF, where
it answers a free value and only the model's draw counter moves. The free value and the counter are the model's choice (log 3). -/
def Obligations.ByteReads : Prop :=
  ∀ (s : State) (a : Addr),
    (s.ioIntercept = .none ∨ a.toNat < 0x0FF2 ∨ 0x0FFF < a.toNat → memRead a s = (s.mem.read a, s)) ∧
    (s.ioIntercept = .oracle → 0x0FF2 ≤ a.toNat → a.toNat ≤ 0x0FFF →
      memRead a s = (Config.ioDraw s.ioDraws, { s with ioDraws := s.ioDraws + 1 }))

/-- R36, R47: a write stores the byte at its address, every address writable, and changes no other byte; under
IO_INTERCEPT = oracle at 0x0FF2 to 0x0FFF it is also the latest event the host observes, in the model's own list (log 4). -/
def Obligations.ByteWrites : Prop :=
  ∀ (s : State) (a : Addr) (v : Byte), s.mem.wf = true →
    loadByte a (memWrite a v s) = v ∧ KeepsBytesBut [a] s (memWrite a v s) ∧
    KeepsRegs s (memWrite a v s) ∧ (memWrite a v s).pc = s.pc ∧ (memWrite a v s).flags = s.flags ∧
    KeepsPlatform s (memWrite a v s) ∧ (memWrite a v s).ioDraws = s.ioDraws ∧
    (s.ioIntercept = .none ∨ a.toNat < 0x0FF2 ∨ 0x0FFF < a.toNat → (memWrite a v s).ioEvents = s.ioEvents) ∧
    (s.ioIntercept = .oracle → 0x0FF2 ≤ a.toNat → a.toNat ≤ 0x0FFF →
      (memWrite a v s).ioEvents = s.ioEvents ++ [⟨a, v⟩])

/-- R38, R39: SP is the bytes that two MemReads answer at 0x0FF0 (high) and then 0x0FF1 (low); writing SP is two MemWrites,
high byte first, writes those two and no other byte, and SP reads back as written. -/
def Obligations.StackPointerIsTwoBytes : Prop :=
  ∀ (s : State) (v : Addr), s.mem.wf = true →
    (spRead s).toNat = (loadByte 0x0FF0#16 s).toNat * 256 + (loadByte 0x0FF1#16 s).toNat ∧
    spRead s = bytePair (memRead 0x0FF0#16 s).1 (memRead 0x0FF1#16 (memRead 0x0FF0#16 s).2).1 ∧
    spWrite v s = memWrite 0x0FF1#16 (loByte v) (memWrite 0x0FF0#16 (hiByte v) s) ∧
    (loadByte 0x0FF0#16 (spWrite v s)).toNat = v.toNat / 256 ∧
    (loadByte 0x0FF1#16 (spWrite v s)).toNat = v.toNat % 256 ∧
    KeepsBytesBut [0x0FF0#16, 0x0FF1#16] s (spWrite v s) ∧ spRead (spWrite v s) = v

/-- R15, R65: XY is (X << 8) | Y, computed from X and Y: a write to X or Y changes it at once and a write to A, B or C
does not; the indexed address is XY plus the unsigned offset, modulo 65536. -/
def Obligations.XYAndTheIndexedAddress : Prop :=
  ∀ (s : State) (v off : Byte),
    xy s = (s.x.setWidth 16 <<< 8) ||| s.y.setWidth 16 ∧
    (xy (writeReg .X v s)).toNat = v.toNat * 256 + s.y.toNat ∧
    (xy (writeReg .Y v s)).toNat = s.x.toNat * 256 + v.toNat ∧
    xy (writeReg .A v s) = xy s ∧ xy (writeReg .B v s) = xy s ∧ xy (writeReg .C v s) = xy s ∧
    (eaIdx off s).toNat = (s.x.toNat * 256 + s.y.toNat + off.toNat) % 65536

/-! ## Data movement -/

/-- R86, R87: LD r, r2 and LD r, n: their bytes and decode faults; r receives the register's value or the byte, and
nothing else changes. -/
def Obligations.LdRegisterAndImmediate : Prop :=
  ∀ (s : State) (r r2 : Reg) (n : Byte),
    EncodesAs (.ldReg r r2) [0x10#8, regIdByte r, regIdByte r2] ∧
    (∀ b2, RejectsId [0x10#8] [b2]) ∧ RejectsId [0x10#8, regIdByte r] [] ∧
    EncodesAs (.ldImm r n) [0x11#8, regIdByte r, n] ∧ RejectsId [0x11#8] [n] ∧
    (∃ t, exec (.ldReg r r2) s = .next t ∧ WritesOnlyReg r (readReg r2 s) s t) ∧
    ∃ t, exec (.ldImm r n) s = .next t ∧ WritesOnlyReg r n s t

/-- R88, R89: LD r, #a and LD r, XY+N: their bytes and decode faults; r receives what MemRead answers at the address (ByteReads
says what that is), XY being taken before r is written; nothing else changes but what that MemRead itself counts. -/
def Obligations.LdMemory : Prop :=
  ∀ (s : State) (r : Reg) (addr : Addr) (off : Byte),
    EncodesAs (.ldInd r addr) [0x12#8, regIdByte r, hiByte addr, loByte addr] ∧
    RejectsId [0x12#8] [hiByte addr, loByte addr] ∧
    EncodesAs (.ldIdx r off) [0x13#8, regIdByte r, off] ∧ RejectsId [0x13#8] [off] ∧
    (∃ t, exec (.ldInd r addr) s = .next t ∧ WritesOnlyReg r (memRead addr s).1 (memRead addr s).2 t) ∧
    ∃ t, exec (.ldIdx r off) s = .next t ∧
      WritesOnlyReg r (memRead (eaIdx off s) s).1 (memRead (eaIdx off s) s).2 t

/-- R90: ST r, r2: its bytes and decode faults; r2 receives r, and nothing else changes. -/
def Obligations.StRegister : Prop :=
  ∀ (s : State) (r r2 : Reg),
    EncodesAs (.stReg r r2) [0x14#8, regIdByte r, regIdByte r2] ∧
    (∀ b2, RejectsId [0x14#8] [b2]) ∧ RejectsId [0x14#8, regIdByte r] [] ∧
    ∃ t, exec (.stReg r r2) s = .next t ∧ WritesOnlyReg r2 (readReg r s) s t

/-- R91, R92: ST r, #a and ST r, XY+N: their bytes and decode faults; the register is stored at the address, an event where
the host intercepts; nothing else changes. The two fields that count draws and list events are the model's own (log 3, 4). -/
def Obligations.StMemory : Prop :=
  ∀ (s : State) (r : Reg) (addr : Addr) (off : Byte), s.mem.wf = true →
    EncodesAs (.stInd r addr) [0x16#8, regIdByte r, hiByte addr, loByte addr] ∧
    RejectsId [0x16#8] [hiByte addr, loByte addr] ∧
    EncodesAs (.stIdx r off) [0x17#8, regIdByte r, off] ∧ RejectsId [0x17#8] [off] ∧
    (∃ t, exec (.stInd r addr) s = .next t ∧ StoresOnly addr (readReg r s) s t) ∧
    ∃ t, exec (.stIdx r off) s = .next t ∧ StoresOnly (eaIdx off s) (readReg r s) s t

/-- R91, R40, R168: a store to 0x0FF0 or 0x0FF1 replaces the high or the low byte of the SP that the next stack operation
reads. -/
def Obligations.StoreMovesTheStackPointer : Prop :=
  ∀ (s : State) (r : Reg), s.mem.wf = true →
    (∃ t, exec (.stInd r 0x0FF0#16) s = .next t ∧
      (spRead t).toNat = (readReg r s).toNat * 256 + (spRead s).toNat % 256) ∧
    ∃ t, exec (.stInd r 0x0FF1#16) s = .next t ∧
      (spRead t).toNat = (spRead s).toNat / 256 * 256 + (readReg r s).toNat

/-! ## Arithmetic and compare -/

/-- R94 to R99: the four ADD forms: their bytes and decode faults, A plus the resolved operand modulo 256, all four flags,
and nothing else. -/
def Obligations.AddForms : Prop :=
  ∀ (s : State) (r : Reg) (n off : Byte) (addr : Addr),
    EncodesAs (.addReg r) [0x20#8, regIdByte r] ∧ RejectsId [0x20#8] [] ∧ EncodesAs (.addImm n) [0x21#8, n] ∧
    EncodesAs (.addInd addr) [0x22#8, hiByte addr, loByte addr] ∧ EncodesAs (.addIdx off) [0x23#8, off] ∧
    (∃ t, exec (.addReg r) s = .next t ∧ AddsToA (readReg r s) s t) ∧
    (∃ t, exec (.addImm n) s = .next t ∧ AddsToA n s t) ∧
    (∃ t, exec (.addInd addr) s = .next t ∧ AddsToA (memRead addr s).1 (memRead addr s).2 t) ∧
    ∃ t, exec (.addIdx off) s = .next t ∧ AddsToA (memRead (eaIdx off s) s).1 (memRead (eaIdx off s) s).2 t

/-- R94, R95, R100 to R103: the four SUB forms: their bytes and decode faults, A minus the resolved operand modulo 256, the
borrow in C, the other flags from the result, and nothing else. -/
def Obligations.SubForms : Prop :=
  ∀ (s : State) (r : Reg) (n off : Byte) (addr : Addr),
    EncodesAs (.subReg r) [0x24#8, regIdByte r] ∧ RejectsId [0x24#8] [] ∧ EncodesAs (.subImm n) [0x25#8, n] ∧
    EncodesAs (.subInd addr) [0x26#8, hiByte addr, loByte addr] ∧ EncodesAs (.subIdx off) [0x27#8, off] ∧
    (∃ t, exec (.subReg r) s = .next t ∧ SubtractsFromA (readReg r s) s t) ∧
    (∃ t, exec (.subImm n) s = .next t ∧ SubtractsFromA n s t) ∧
    (∃ t, exec (.subInd addr) s = .next t ∧ SubtractsFromA (memRead addr s).1 (memRead addr s).2 t) ∧
    ∃ t, exec (.subIdx off) s = .next t ∧
      SubtractsFromA (memRead (eaIdx off s) s).1 (memRead (eaIdx off s) s).2 t

/-- R104, R105, R94: INC and DEC: their bytes; A plus or minus 1 modulo 256; C exactly when A was 0xFF or 0x00; the other
flags from the result; nothing else. -/
def Obligations.IncAndDec : Prop :=
  ∀ s : State,
    EncodesAs .inc [0x2C#8] ∧ EncodesAs .dec [0x2D#8] ∧
    (∃ t, exec .inc s = .next t ∧ AddsToA 1#8 s t ∧ (t.flags.c = true ↔ s.a = 0xFF#8)) ∧
    ∃ t, exec .dec s = .next t ∧ SubtractsFromA 1#8 s t ∧ (t.flags.c = true ↔ s.a = 0x00#8)

/-- R106, R108 to R111: the four CMP forms: their bytes and decode faults; the flags compare A with the resolved operand; A
and everything else is unchanged. -/
def Obligations.CmpForms : Prop :=
  ∀ (s : State) (r : Reg) (n off : Byte) (addr : Addr),
    EncodesAs (.cmpReg r) [0x28#8, regIdByte r] ∧ RejectsId [0x28#8] [] ∧ EncodesAs (.cmpImm n) [0x29#8, n] ∧
    EncodesAs (.cmpInd addr) [0x2A#8, hiByte addr, loByte addr] ∧ EncodesAs (.cmpIdx off) [0x2B#8, off] ∧
    (∃ t, exec (.cmpReg r) s = .next t ∧ ComparesA (readReg r s) s t) ∧
    (∃ t, exec (.cmpImm n) s = .next t ∧ ComparesA n s t) ∧
    (∃ t, exec (.cmpInd addr) s = .next t ∧ ComparesA (memRead addr s).1 (memRead addr s).2 t) ∧
    ∃ t, exec (.cmpIdx off) s = .next t ∧ ComparesA (memRead (eaIdx off s) s).1 (memRead (eaIdx off s) s).2 t

/-- R107: from the same A and operand CMP gives SUB's C and Z, and the complement of SUB's P; there are operands on which
its S differs from SUB's. -/
def Obligations.CmpIsNotSub : Prop :=
  (∀ (s : State) (n : Byte), ∃ t u, exec (.cmpImm n) s = .next t ∧ exec (.subImm n) s = .next u ∧
    t.flags.c = u.flags.c ∧ t.flags.z = u.flags.z ∧ t.flags.p = !u.flags.p ∧ t.a = s.a) ∧
  ∃ (s : State) (n : Byte) (t u : State), exec (.cmpImm n) s = .next t ∧ exec (.subImm n) s = .next u ∧
    t.flags.s ≠ u.flags.s

/-! ## Control flow -/

/-- R114, R112: JMP: its bytes; pc becomes the target, any of the 65536; nothing else changes. -/
def Obligations.JmpJumps : Prop :=
  ∀ (s : State) (tgt : Addr),
    EncodesAs (.jmp tgt) [0x30#8, hiByte tgt, loByte tgt] ∧
    ∃ t, exec (.jmp tgt) s = .next t ∧ JumpsIf true tgt s t

/-- R113, R115 to R122: the eight conditional jumps: their bytes; each tests its one flag, jumps when it is set (negated:
clear), and falls through otherwise; nothing else changes. -/
def Obligations.ConditionalJumps : Prop :=
  ∀ (s : State) (tgt : Addr),
    (EncodesAs (.jc tgt) [0x38#8, hiByte tgt, loByte tgt] ∧
      ∃ t, exec (.jc tgt) s = .next t ∧ JumpsIf s.flags.c tgt s t) ∧
    (EncodesAs (.jnc tgt) [0x39#8, hiByte tgt, loByte tgt] ∧
      ∃ t, exec (.jnc tgt) s = .next t ∧ JumpsIf (!s.flags.c) tgt s t) ∧
    (EncodesAs (.jp tgt) [0x3A#8, hiByte tgt, loByte tgt] ∧
      ∃ t, exec (.jp tgt) s = .next t ∧ JumpsIf s.flags.p tgt s t) ∧
    (EncodesAs (.jnp tgt) [0x3B#8, hiByte tgt, loByte tgt] ∧
      ∃ t, exec (.jnp tgt) s = .next t ∧ JumpsIf (!s.flags.p) tgt s t) ∧
    (EncodesAs (.jz tgt) [0x3C#8, hiByte tgt, loByte tgt] ∧
      ∃ t, exec (.jz tgt) s = .next t ∧ JumpsIf s.flags.z tgt s t) ∧
    (EncodesAs (.jnz tgt) [0x3D#8, hiByte tgt, loByte tgt] ∧
      ∃ t, exec (.jnz tgt) s = .next t ∧ JumpsIf (!s.flags.z) tgt s t) ∧
    (EncodesAs (.js tgt) [0x3E#8, hiByte tgt, loByte tgt] ∧
      ∃ t, exec (.js tgt) s = .next t ∧ JumpsIf s.flags.s tgt s t) ∧
    (EncodesAs (.jns tgt) [0x3F#8, hiByte tgt, loByte tgt] ∧
      ∃ t, exec (.jns tgt) s = .next t ∧ JumpsIf (!s.flags.s) tgt s t)

/-- R123, R45: CALL: its bytes; SP read fresh, SP - 2 written to SP's bytes first, then the return address at it, high byte
first (a later write over an earlier one where they meet), the writes to host-reserved bytes being events in order; pc
becomes the target; nothing else changes. -/
def Obligations.CallPushesAndJumps : Prop :=
  ∀ (s : State) (tgt : Addr), s.mem.wf = true →
    EncodesAs (.call tgt) [0x40#8, hiByte tgt, loByte tgt] ∧
    ∃ t, exec (.call tgt) s = .next t ∧ t.pc = tgt ∧
      (∀ a, loadByte a t =
        if a = spRead s - 1#16 then loByte s.pc
        else if a = spRead s - 2#16 then hiByte s.pc
        else if a = 0x0FF1#16 then loByte (spRead s - 2#16)
        else if a = 0x0FF0#16 then hiByte (spRead s - 2#16)
        else loadByte a s) ∧
      t.ioEvents = s.ioEvents ++ eventsOf (spRead s - 2#16) (hiByte s.pc) s ++
        eventsOf (spRead s - 1#16) (loByte s.pc) s ∧
      KeepsRegs s t ∧ t.flags = s.flags ∧ t.ioDraws = s.ioDraws ∧ KeepsPlatform s t

/-- R124: RET: its byte; the bytes MemRead answers at SP and SP + 1, high byte first, become pc; SP becomes SP + 2 after
the reads; nothing else changes but what the reads themselves count. -/
def Obligations.RetPopsIntoPc : Prop :=
  ∀ s : State, s.mem.wf = true →
    EncodesAs .ret [0x41#8] ∧
    ∃ t, exec .ret s = .next t ∧
      t.pc = bytePair (memRead (spRead s) s).1 (memRead (spRead s + 1#16) (memRead (spRead s) s).2).1 ∧
      spRead t = spRead s + 2#16 ∧ KeepsBytesBut [0x0FF0#16, 0x0FF1#16] s t ∧
      KeepsIo (memRead (spRead s + 1#16) (memRead (spRead s) s).2).2 t ∧
      KeepsRegs s t ∧ t.flags = s.flags ∧ KeepsPlatform s t

/-! ## Stack and NOP -/

/-- R127, R45: PUSH: its bytes and decode fault; SP read fresh, SP - 1 written to SP's bytes first, then the register at it
(over SP's own byte where they meet), an event where the host intercepts; nothing else changes. -/
def Obligations.PushStores : Prop :=
  ∀ (s : State) (r : Reg), s.mem.wf = true →
    EncodesAs (.push r) [0x42#8, regIdByte r] ∧ RejectsId [0x42#8] [] ∧
    ∃ t, exec (.push r) s = .next t ∧
      (∀ a, loadByte a t =
        if a = spRead s - 1#16 then readReg r s
        else if a = 0x0FF1#16 then loByte (spRead s - 1#16)
        else if a = 0x0FF0#16 then hiByte (spRead s - 1#16)
        else loadByte a s) ∧
      t.ioEvents = s.ioEvents ++ eventsOf (spRead s - 1#16) (readReg r s) s ∧
      KeepsRegs s t ∧ t.pc = s.pc ∧ t.flags = s.flags ∧ t.ioDraws = s.ioDraws ∧ KeepsPlatform s t

/-- R128: POP: its bytes and decode fault; the register receives what MemRead answers at SP, SP becomes SP + 1 after the
read; nothing else changes but what the read itself counts. -/
def Obligations.PopLoads : Prop :=
  ∀ (s : State) (r : Reg), s.mem.wf = true →
    EncodesAs (.pop r) [0x43#8, regIdByte r] ∧ RejectsId [0x43#8] [] ∧
    ∃ t, exec (.pop r) s = .next t ∧ readReg r t = (memRead (spRead s) s).1 ∧ spRead t = spRead s + 1#16 ∧
      KeepsBytesBut [0x0FF0#16, 0x0FF1#16] s t ∧ KeepsRegsBut r s t ∧ KeepsIo (memRead (spRead s) s).2 t ∧
      t.pc = s.pc ∧ t.flags = s.flags ∧ KeepsPlatform s t

/-- R129: where a stack write lands on SP itself: PUSH at SP = 0x0FF1 and 0x0FF2, CALL at SP = 0x0FF1, 0x0FF2 and 0x0FF3
leave the SP of the table (next is the pc that CALL saves). -/
def Obligations.StackWritesOnSp : Prop :=
  ∀ (s : State) (r : Reg) (tgt : Addr), s.mem.wf = true →
    (spRead s = 0x0FF1#16 → ∃ t, exec (.push r) s = .next t ∧ spRead t = bytePair (readReg r s) 0xF0#8) ∧
    (spRead s = 0x0FF2#16 → ∃ t, exec (.push r) s = .next t ∧ spRead t = bytePair 0x0F#8 (readReg r s)) ∧
    (spRead s = 0x0FF1#16 → ∃ t, exec (.call tgt) s = .next t ∧ spRead t = bytePair (loByte s.pc) 0xEF#8) ∧
    (spRead s = 0x0FF2#16 → ∃ t, exec (.call tgt) s = .next t ∧ spRead t = s.pc) ∧
    (spRead s = 0x0FF3#16 → ∃ t, exec (.call tgt) s = .next t ∧ spRead t = bytePair 0x0F#8 (hiByte s.pc))

/-- R129 (the source's property under its precondition): PUSH r and then POP r2, with any pc between, leave SP and put
r's value into r2, where SP is neither 0x0FF1 nor 0x0FF2 and the host does not intercept the byte. -/
def Obligations.PushPopRoundTrip : Prop :=
  ∀ (s : State) (r r2 : Reg) (pc : Addr), s.mem.wf = true → spRead s ≠ 0x0FF1#16 → spRead s ≠ 0x0FF2#16 →
    intercepted (spRead s - 1#16) s = false →
    ∃ t u, exec (.push r) s = .next t ∧ exec (.pop r2) (setPc pc t) = .next u ∧
      spRead u = spRead s ∧ readReg r2 u = readReg r s ∧ KeepsRegsBut r2 s u ∧ u.flags = s.flags

/-- R124 (the source's property under its precondition): CALL and then RET, with any pc between, return to the address
after the CALL and leave SP, where SP is not 0x0FF1, 0x0FF2 or 0x0FF3 and the host intercepts neither byte. -/
def Obligations.CallRetRoundTrip : Prop :=
  ∀ (s : State) (tgt pc : Addr), s.mem.wf = true →
    spRead s ≠ 0x0FF1#16 → spRead s ≠ 0x0FF2#16 → spRead s ≠ 0x0FF3#16 →
    intercepted (spRead s - 1#16) s = false → intercepted (spRead s - 2#16) s = false →
    ∃ t u, exec (.call tgt) s = .next t ∧ t.pc = tgt ∧ exec .ret (setPc pc t) = .next u ∧
      u.pc = s.pc ∧ spRead u = spRead s ∧ KeepsRegs s u ∧ u.flags = s.flags

/-- R130: NOP: its byte; nothing changes. -/
def Obligations.NopChangesNothing : Prop :=
  ∀ s : State, EncodesAs .nop [0x00#8] ∧ exec .nop s = .next s

/-! ## Frames over all instructions -/

/-- R22: ADD, SUB, INC, DEC and CMP overwrite all four flags whatever they were; every other instruction leaves all four. -/
def Obligations.FlagsWrittenByFiveMnemonics : Prop :=
  ∀ (i : Instr) (s t : State), exec i s = .next t →
    (writesFlags i = false → t.flags = s.flags) ∧
    (writesFlags i = true → ∀ f u, exec i (setFlags f s) = .next u → u.flags = t.flags)

/-- R23: only the conditional jumps read the flags: any other instruction does the same to every other part of the state
whatever the flags are. -/
def Obligations.FlagsReadByConditionalJumpsOnly : Prop :=
  ∀ (i : Instr) (f g : Flags) (s t u : State),
    i.op ∉ [.jc, .jnc, .jp, .jnp, .jz, .jnz, .js, .jns] →
    exec i (setFlags f s) = .next t → exec i (setFlags g s) = .next u → setFlags f t = setFlags f u

/-- R18: the jumps, CALL and RET alone may change pc; every other instruction leaves it at next. -/
def Obligations.PcSetByControlFlowOnly : Prop :=
  ∀ (i : Instr) (s t : State), exec i s = .next t → setsPc i = false → t.pc = s.pc

/-- R14: an instruction writes no register but those the table gives it. -/
def Obligations.RegistersWritten : Prop :=
  ∀ (i : Instr) (s t : State), exec i s = .next t → ∀ q, q ∉ destRegs i → readReg q t = readReg q s

/-- R44: an instruction changes no byte of memory but at the addresses it stores to, computed as its meaning computes them;
a form that stores nothing changes none. -/
def Obligations.BytesWritten : Prop :=
  ∀ (i : Instr) (s t : State), exec i s = .next t → ∀ a, a ∉ storedAt i s → loadByte a t = loadByte a s

/-! ## The assembler -/

/-- R31, R79, R80, R83: an assembled image is as long as its instructions and label NOPs together, which is at most 65536
bytes; each label is bound to its definition's offset, and there the image holds the one byte of NOP. -/
def Obligations.LabelsAreNopsAtTheirOffsets : Prop :=
  ∀ (m : CodeMap) (lines : List AsmLine) (image : List Byte), assembleLines m [] lines = .ok image →
    image.length = (lines.map lineWidth).sum ∧ imageWf image = true ∧
    ∀ (before after : List AsmLine) (l : AsmLine) (name : Text), lines = before ++ l :: after →
      l.label = some name →
      image[(before.map lineWidth).sum]? = some (m.opcode .nop) ∧
      ∃ sym, findSymbol (passOne 0 [] lines).2 name = some sym ∧ sym.offset = (before.map lineWidth).sum

/-- R71, R77, R81: in an assembled image, the bytes at each line's instruction decode, under the same code map, to an
instruction of the mnemonic and the forms that the line spells, whose fields hold, in the order spelled, what the operands
stand for: a register's number, a literal's value, a label's bound offset. -/
def Obligations.AssembledInstructionsDecode : Prop :=
  ∀ (m : CodeMap), m.wf = true → ∀ (lines : List AsmLine) (image : List Byte),
    assembleLines m [] lines = .ok image →
    ∀ (before after : List AsmLine) (l : AsmLine) (ai : AsmInstr), lines = before ++ l :: after →
      l.instr = some ai →
      ∃ i rest, resolveInstr (passOne 0 [] lines).2 ai = .ok i ∧
        i.op.mnemonic = ai.mnemonic ∧ i.op.format.fields.map Field.form = ai.operands.map AsmOperand.form ∧
        List.Forall₂ (StandsFor (passOne 0 [] lines).2) ai.operands i.fieldNumbers ∧
        decodeWith m (image.drop ((before.map lineWidth).sum + labelWidth l.label)) = .ok (i, rest)
end

