-- ==== Sys2Proof/Laws/Assembler.lean ====
section
/-! SUPPORT. What each part of the assembler does, said once (30_encoding R79 to R83): an accepted assembly has no error in either
pass; pass 1 only adds symbols; pass 2 goes line by line. -/

namespace Sys2Proof.Machine

/-! ## An accepted assembly (R82) -/

/-- An image comes out only where parsing and both passes have no error, and it is the bytes pass 2 collects (R82, R83). -/
theorem assembleLines_ok {m : CodeMap} {parseErrors : List AsmError} {lines : List AsmLine} {image : List Byte}
    (h : assembleLines m parseErrors lines = .ok image) :
    parseErrors = [] ∧ (passOne 0 [] lines).1 = [] ∧ (passTwo (passOne 0 [] lines).2 lines).1 = [] ∧
      image = imageOf m (passTwo (passOne 0 [] lines).2 lines).2 := by
  simp only [assembleLines] at h
  split_ifs at h with hnone
  simp only [List.isEmpty_iff, List.append_eq_nil_iff] at hnone
  cases h
  exact ⟨hnone.1.1, hnone.1.2, hnone.2, rfl⟩

/-! ## Pass 1 (R79, R80) -/

/-- A bound name stays bound to the same symbol when symbols are added after it. -/
theorem findSymbol_append {old new : List Symbol} {name : Text} {sym : Symbol} (h : findSymbol old name = some sym) :
    findSymbol (old ++ new) name = some sym := by
  rw [findSymbol] at h
  rw [findSymbol, List.find?_append, h, Option.some_or]

theorem bindLabel_extends (offset : Nat) (symbols : List Symbol) (l : AsmLine) :
    ∃ new, bindLabel offset symbols l = symbols ++ new := by
  unfold bindLabel
  split
  · exact ⟨[], (List.append_nil _).symm⟩
  · split
    · exact ⟨[], (List.append_nil _).symm⟩
    · exact ⟨_, rfl⟩

/-- A line whose label is not yet bound binds it to its offset (R79). -/
theorem findSymbol_bindLabel {offset : Nat} {symbols : List Symbol} {l : AsmLine} {name : Text}
    (hl : l.label = some name) (hnew : findSymbol symbols name = none) :
    findSymbol (bindLabel offset symbols l) name = some ⟨name, offset, l.number⟩ := by
  simp only [bindLabel, hl, hnew, Option.isSome_none]
  simp only [findSymbol] at hnew ⊢
  simp [hnew]

/-- A labelled line with no duplicate error has a name that was not bound (R80). -/
theorem findSymbol_of_duplicateAt_nil {symbols : List Symbol} {l : AsmLine} {name : Text} (hl : l.label = some name)
    (h : duplicateAt symbols l = []) : findSymbol symbols name = none := by
  simp only [duplicateAt, hl, Option.bind_some] at h
  split at h
  · cases h
  · assumption

/-- A line that is not reported as too long stays within the code space, where it began within it (R31). -/
theorem le_of_tooLongAt_nil {offset : Nat} {l : AsmLine} (ho : offset ≤ 65536) (h : tooLongAt offset l = []) :
    offset + lineWidth l ≤ 65536 := by
  by_contra hpast
  simp [tooLongAt, ho, show 65536 < offset + lineWidth l by omega] at h

/-- Pass 1 adds symbols after those it starts from. -/
theorem passOne_extends {lines : List AsmLine} : ∀ {offset : Nat} {symbols : List Symbol},
    ∃ new, (passOne offset symbols lines).2 = symbols ++ new := by
  induction lines with
  | nil => exact ⟨[], (List.append_nil _).symm⟩
  | cons l rest ih =>
    intro offset symbols
    obtain ⟨first, hfirst⟩ := bindLabel_extends offset symbols l
    obtain ⟨later, hlater⟩ := ih (offset := offset + lineWidth l) (symbols := bindLabel offset symbols l)
    exact ⟨first ++ later, by rw [passOne, hlater, hfirst, List.append_assoc]⟩

/-! ## Pass 2 (R81, R83) -/

theorem imageOf_append (m : CodeMap) (before after : List Instr) :
    imageOf m (before ++ after) = imageOf m before ++ imageOf m after := by
  simp only [imageOf, List.map_append, List.flatten_append]

/-- Where pass 2 has no error, it has none in either part of the lines, and collects the one part after the other. -/
theorem passTwo_append {symbols : List Symbol} {before after : List AsmLine}
    (h : (passTwo symbols (before ++ after)).1 = []) :
    (passTwo symbols before).1 = [] ∧ (passTwo symbols after).1 = [] ∧
      (passTwo symbols (before ++ after)).2 = (passTwo symbols before).2 ++ (passTwo symbols after).2 := by
  induction before with
  | nil => exact ⟨rfl, h, rfl⟩
  | cons l rest ih =>
    simp only [List.cons_append, passTwo] at h ⊢
    split at h
    · obtain ⟨hbefore, hafter, happ⟩ := ih h
      exact ⟨hbefore, hafter, by rw [happ, List.append_assoc]⟩
    · cases h

end Sys2Proof.Machine
end

