-- ==== Sys2Proof/Laws/Decode.lean ====
section
/-! SUPPORT. The two lookups of the decoder invert the code map: an opcode byte or a register id of a well-formed map is read
back, and only the byte of a row is read as that row (R59, R61, R71). -/

namespace Sys2Proof

theorem Op.mem_all (o : Op) : o ∈ Op.all := by cases o <;> decide

theorem Reg.mem_all (r : Reg) : r ∈ Reg.all := by cases r <;> decide

/-- Searching a list for a key finds the member that has it, where keys do not repeat. -/
theorem find_key_of_nodup {α : Type} {key : α → Byte} {l : List α} (h : (l.map key).Nodup) {a : α} (ha : a ∈ l) :
    l.find? (fun o => key o == key a) = some a := by
  induction l with
  | nil => cases ha
  | cons b rest ih =>
    rw [List.map_cons, List.nodup_cons] at h
    rcases List.mem_cons.1 ha with rfl | hmem
    · simp
    · have hne : key b ≠ key a := fun he => h.1 (he ▸ List.mem_map_of_mem hmem)
      rw [List.find?_cons_of_neg (by simpa using hne)]
      exact ih h.2 hmem

theorem CodeMap.wf_iff {m : CodeMap} : m.wf = true ↔ (Op.all.map m.opcode).Nodup ∧ (Reg.all.map m.regId).Nodup := by
  simp [CodeMap.wf]

/-- The spec's tables repeat no opcode byte and no register id (R59, R61). -/
theorem CodeMap.standard_wf : CodeMap.standard.wf = true := by decide

theorem opOfByte_opcode {m : CodeMap} (h : m.wf = true) (o : Op) : opOfByte m (m.opcode o) = some o :=
  find_key_of_nodup (CodeMap.wf_iff.1 h).1 (Op.mem_all o)

theorem regOfByte_regId {m : CodeMap} (h : m.wf = true) (r : Reg) : regOfByte m (m.regId r) = some r :=
  find_key_of_nodup (CodeMap.wf_iff.1 h).2 (Reg.mem_all r)

theorem opcode_of_opOfByte {m : CodeMap} {b : Byte} {o : Op} (h : opOfByte m b = some o) : m.opcode o = b := by
  simpa using List.find?_some h

theorem regId_of_regOfByte {m : CodeMap} {b : Byte} {r : Reg} (h : regOfByte m b = some r) : m.regId r = b := by
  simpa using List.find?_some h

theorem withReg_regId {m : CodeMap} (h : m.wf = true) (r : Reg) (k : Reg → Decoded) : withReg m (m.regId r) k = k r := by
  simp [withReg, regOfByte_regId h]

/-- What withReg answers an instruction through: the register its byte names. -/
theorem withReg_ok {m : CodeMap} {b : Byte} {k : Reg → Decoded} {d : Instr × List Byte} (h : withReg m b k = .ok d) :
    ∃ r, m.regId r = b ∧ k r = .ok d := by
  unfold withReg at h
  split at h
  · next r hr => exact ⟨r, regId_of_regOfByte hr, h⟩
  · cases h

/-! ## Each format, inverted: the bytes it accepts and the instruction it answers (R60) -/

theorem formatZ_ok {i j : Instr} {bytes rest : List Byte} (h : formatZ i bytes = .ok (j, rest)) :
    bytes = rest ∧ j = i := by
  cases h
  exact ⟨rfl, rfl⟩

theorem formatR_ok {m : CodeMap} {c : Byte} {mk : Reg → Instr} {j : Instr} {bytes rest : List Byte}
    (h : formatR m c mk bytes = .ok (j, rest)) : ∃ r, bytes = m.regId r :: rest ∧ j = mk r := by
  match bytes, h with
  | b1 :: bs, h =>
    obtain ⟨r, rfl, hk⟩ := withReg_ok h
    cases hk
    exact ⟨r, rfl, rfl⟩

theorem formatB_ok {c : Byte} {mk : Byte → Instr} {j : Instr} {bytes rest : List Byte}
    (h : formatB c mk bytes = .ok (j, rest)) : ∃ n, bytes = n :: rest ∧ j = mk n := by
  match bytes, h with
  | b1 :: bs, h =>
    cases h
    exact ⟨b1, rfl, rfl⟩

theorem formatW_ok {c : Byte} {mk : Addr → Instr} {j : Instr} {bytes rest : List Byte}
    (h : formatW c mk bytes = .ok (j, rest)) : ∃ hi lo, bytes = hi :: lo :: rest ∧ j = mk (bytePair hi lo) := by
  match bytes, h with
  | b1 :: b2 :: bs, h =>
    cases h
    exact ⟨b1, b2, rfl, rfl⟩

theorem formatRR_ok {m : CodeMap} {c : Byte} {mk : Reg → Reg → Instr} {j : Instr} {bytes rest : List Byte}
    (h : formatRR m c mk bytes = .ok (j, rest)) : ∃ r r2, bytes = m.regId r :: m.regId r2 :: rest ∧ j = mk r r2 := by
  match bytes, h with
  | b1 :: b2 :: bs, h =>
    obtain ⟨r, rfl, hk⟩ := withReg_ok h
    obtain ⟨r2, rfl, hk2⟩ := withReg_ok hk
    cases hk2
    exact ⟨r, r2, rfl, rfl⟩

theorem formatRB_ok {m : CodeMap} {c : Byte} {mk : Reg → Byte → Instr} {j : Instr} {bytes rest : List Byte}
    (h : formatRB m c mk bytes = .ok (j, rest)) : ∃ r n, bytes = m.regId r :: n :: rest ∧ j = mk r n := by
  match bytes, h with
  | b1 :: b2 :: bs, h =>
    obtain ⟨r, rfl, hk⟩ := withReg_ok h
    cases hk
    exact ⟨r, b2, rfl, rfl⟩

theorem formatRW_ok {m : CodeMap} {c : Byte} {mk : Reg → Addr → Instr} {j : Instr} {bytes rest : List Byte}
    (h : formatRW m c mk bytes = .ok (j, rest)) :
    ∃ r hi lo, bytes = m.regId r :: hi :: lo :: rest ∧ j = mk r (bytePair hi lo) := by
  match bytes, h with
  | b1 :: b2 :: b3 :: bs, h =>
    obtain ⟨r, rfl, hk⟩ := withReg_ok h
    cases hk
    exact ⟨r, b2, b3, rfl, rfl⟩

end Sys2Proof
end

