-- ==== Sys2Proof/Laws/Memory.lean ====
section
/-! SUPPORT. Data memory: every operation keeps the canonical form, a read after a write to the same address gives the value
written, a write leaves every other address alone, and equal memories are equal lists (R29, R35, R36). -/

namespace Sys2Proof.Machine

theorem Memory.wfFrom_cons {lo k : Nat} {v : Byte} {rest : Memory} :
    Memory.wfFrom lo ((k, v) :: rest) = true ↔
      lo ≤ k ∧ k < 65536 ∧ v ≠ Memory.unlisted ∧ Memory.wfFrom (k + 1) rest = true := by
  simp only [Memory.wfFrom, Bool.and_eq_true, decide_eq_true_eq, Config.memSize, and_assoc]

theorem Memory.wfFrom_mono {lo lo' : Nat} (h : lo' ≤ lo) {m : Memory} (hm : Memory.wfFrom lo m = true) :
    Memory.wfFrom lo' m = true := by
  cases m with
  | nil => rfl
  | cons c rest =>
    obtain ⟨h1, h2, h3, h4⟩ := Memory.wfFrom_cons.1 hm
    exact Memory.wfFrom_cons.2 ⟨by omega, h2, h3, h4⟩

/-- Nothing is listed below the bound. -/
theorem Memory.lookup_below {m : Memory} : ∀ {lo n : Nat}, Memory.wfFrom lo m = true → n < lo →
    Memory.lookup m n = Memory.unlisted := by
  induction m with
  | nil => intros; rfl
  | cons c rest ih =>
    intro lo n hm hn
    obtain ⟨h1, -, -, h4⟩ := Memory.wfFrom_cons.1 hm
    have hne : c.1 ≠ n := by omega
    rw [Memory.lookup, if_neg hne]
    exact ih h4 (by omega)

theorem Memory.insert_wfFrom {n : Nat} {v : Byte} (hn : n < 65536) {m : Memory} :
    ∀ {lo : Nat}, Memory.wfFrom lo m = true → lo ≤ n → Memory.wfFrom lo (Memory.insert n v m) = true := by
  induction m with
  | nil =>
    intro lo _ hlo
    simp only [Memory.insert]
    split
    · rfl
    · next hv => exact Memory.wfFrom_cons.2 ⟨hlo, hn, hv, rfl⟩
  | cons c rest ih =>
    intro lo hm hlo
    obtain ⟨h1, h2, h3, h4⟩ := Memory.wfFrom_cons.1 hm
    simp only [Memory.insert]
    split
    · next hlt =>
      split
      · exact hm
      · next hv => exact Memory.wfFrom_cons.2 ⟨hlo, hn, hv, Memory.wfFrom_cons.2 ⟨hlt, h2, h3, h4⟩⟩
    · split
      · next heq =>
        split
        · exact Memory.wfFrom_mono (by omega) h4
        · next hv => exact Memory.wfFrom_cons.2 ⟨hlo, hn, hv, heq ▸ h4⟩
      · exact Memory.wfFrom_cons.2 ⟨h1, h2, h3, ih h4 (by omega)⟩

theorem Memory.lookup_insert_same {n : Nat} {v : Byte} {m : Memory} :
    ∀ {lo : Nat}, Memory.wfFrom lo m = true → Memory.lookup (Memory.insert n v m) n = v := by
  induction m with
  | nil =>
    intro lo _
    simp only [Memory.insert]
    split
    · next hv => exact hv.symm
    · simp [Memory.lookup]
  | cons c rest ih =>
    intro lo hm
    obtain ⟨h1, -, -, h4⟩ := Memory.wfFrom_cons.1 hm
    simp only [Memory.insert]
    split
    · next hlt =>
      split
      · next hv =>
        rw [hv]
        exact Memory.lookup_below (Memory.wfFrom_mono (le_refl _)
          (Memory.wfFrom_cons.2 ⟨le_refl _, (Memory.wfFrom_cons.1 hm).2⟩)) hlt
      · simp [Memory.lookup]
    · split
      · next heq =>
        split
        · next hv =>
          rw [hv]
          exact Memory.lookup_below h4 (by omega)
        · simp [Memory.lookup]
      · next hlt hne =>
        rw [Memory.lookup, if_neg (by omega)]
        exact ih h4

theorem Memory.lookup_insert_other {n k : Nat} (h : k ≠ n) {v : Byte} {m : Memory} :
    Memory.lookup (Memory.insert n v m) k = Memory.lookup m k := by
  induction m with
  | nil =>
    simp only [Memory.insert]
    split
    · rfl
    · simp [Memory.lookup, Ne.symm h]
  | cons c rest ih =>
    simp only [Memory.insert]
    split
    · split
      · rfl
      · rw [Memory.lookup, if_neg (Ne.symm h)]
    · split
      · next heq =>
        have hck : c.1 ≠ k := by omega
        split
        · rw [Memory.lookup, if_neg hck]
        · rw [Memory.lookup, if_neg (Ne.symm h), Memory.lookup, if_neg hck]
      · simp only [Memory.lookup, ih]

/-- The empty memory, memory after reset, is in canonical form (R29). -/
theorem Memory.nil_wf : Memory.wf [] = true := rfl

/-- A write keeps the canonical form. -/
theorem Memory.write_wf {m : Memory} (hm : m.wf = true) (a : Addr) (v : Byte) : (m.write a v).wf = true :=
  Memory.insert_wfFrom a.isLt hm (Nat.zero_le _)

/-- A read after a write to the same address gives the value written (R36). -/
theorem Memory.read_write_same {m : Memory} (hm : m.wf = true) (a : Addr) (v : Byte) : (m.write a v).read a = v :=
  Memory.lookup_insert_same hm

/-- A write leaves every other address alone (R36). -/
theorem Memory.read_write_other {a w : Addr} (h : a ≠ w) (m : Memory) (v : Byte) : (m.write w v).read a = m.read a :=
  Memory.lookup_insert_other (fun he => h (BitVec.eq_of_toNat_eq he))

/-- Memories in canonical form that agree at every number are equal lists. -/
theorem Memory.eq_of_lookup_eq {m : Memory} : ∀ {m' : Memory} {lo : Nat}, Memory.wfFrom lo m = true →
    Memory.wfFrom lo m' = true → (∀ n, Memory.lookup m n = Memory.lookup m' n) → m = m' := by
  induction m with
  | nil =>
    intro m' lo _ hm' h
    cases m' with
    | nil => rfl
    | cons c rest =>
      obtain ⟨-, -, h3, -⟩ := Memory.wfFrom_cons.1 hm'
      have hc := h c.1
      simp only [Memory.lookup, if_true] at hc
      exact absurd hc.symm h3
  | cons c rest ih =>
    intro m' lo hm hm' h
    obtain ⟨h1, -, h3, h4⟩ := Memory.wfFrom_cons.1 hm
    cases m' with
    | nil =>
      have hc := h c.1
      simp only [Memory.lookup, if_true] at hc
      exact absurd hc h3
    | cons c' rest' =>
      obtain ⟨h1', -, h3', h4'⟩ := Memory.wfFrom_cons.1 hm'
      have hkey : c.1 = c'.1 := by
        rcases Nat.lt_trichotomy c.1 c'.1 with hlt | heq | hgt
        · have hc := h c.1
          rw [Memory.lookup, if_pos rfl, Memory.lookup, if_neg (by omega),
            Memory.lookup_below h4' (by omega)] at hc
          exact absurd hc h3
        · exact heq
        · have hc := h c'.1
          rw [Memory.lookup, if_neg (by omega), Memory.lookup, if_pos rfl,
            Memory.lookup_below h4 (by omega)] at hc
          exact absurd hc.symm h3'
      have hval : c.2 = c'.2 := by
        have hc := h c.1
        rw [Memory.lookup, if_pos rfl, Memory.lookup, if_pos hkey.symm] at hc
        exact hc
      have hrest : rest = rest' := by
        refine ih h4 (hkey ▸ h4') (fun n => ?_)
        by_cases hn : n = c.1
        · subst hn
          rw [Memory.lookup_below h4 (by omega), Memory.lookup_below h4' (by omega)]
        · have hc := h n
          rw [Memory.lookup, if_neg (by omega), Memory.lookup, if_neg (by omega)] at hc
          exact hc
      rw [hrest, Prod.ext hkey hval]

/-- A number outside the address space is never listed. -/
theorem Memory.lookup_outside {m : Memory} : ∀ {lo n : Nat}, Memory.wfFrom lo m = true → 65536 ≤ n →
    Memory.lookup m n = Memory.unlisted := by
  induction m with
  | nil => intros; rfl
  | cons c rest ih =>
    intro lo n hm hn
    obtain ⟨-, h2, -, h4⟩ := Memory.wfFrom_cons.1 hm
    rw [Memory.lookup, if_neg (by omega)]
    exact ih h4 hn

/-- Equal memories are equal data: canonical memories that read alike at every address are the same list. -/
theorem Memory.eq_of_read_eq {m m' : Memory} (hm : m.wf = true) (hm' : m'.wf = true)
    (h : ∀ a, m.read a = m'.read a) : m = m' := by
  refine Memory.eq_of_lookup_eq hm hm' (fun n => ?_)
  rcases Nat.lt_or_ge n 65536 with hn | hn
  · have := h (BitVec.ofNat 16 n)
    simpa [Memory.read, Nat.mod_eq_of_lt hn] using this
  · rw [Memory.lookup_outside hm hn, Memory.lookup_outside hm' hn]

end Sys2Proof.Machine
end

