-- ==== Sys2Proof/Laws/State.lean ====
section
/-! SUPPORT. One lemma per field per update of State, so that no later proof unfolds a record update. -/

namespace Sys2Proof.Machine

/-! ### setPc -/

@[simp] theorem setPc_a (t : Addr) (s : State) : (setPc t s).a = s.a := rfl
@[simp] theorem setPc_b (t : Addr) (s : State) : (setPc t s).b = s.b := rfl
@[simp] theorem setPc_c (t : Addr) (s : State) : (setPc t s).c = s.c := rfl
@[simp] theorem setPc_x (t : Addr) (s : State) : (setPc t s).x = s.x := rfl
@[simp] theorem setPc_y (t : Addr) (s : State) : (setPc t s).y = s.y := rfl
@[simp] theorem setPc_pc (t : Addr) (s : State) : (setPc t s).pc = t := rfl
@[simp] theorem setPc_flags (t : Addr) (s : State) : (setPc t s).flags = s.flags := rfl
@[simp] theorem setPc_mem (t : Addr) (s : State) : (setPc t s).mem = s.mem := rfl
@[simp] theorem setPc_image (t : Addr) (s : State) : (setPc t s).image = s.image := rfl
@[simp] theorem setPc_ready (t : Addr) (s : State) : (setPc t s).ready = s.ready := rfl
@[simp] theorem setPc_ioIntercept (t : Addr) (s : State) : (setPc t s).ioIntercept = s.ioIntercept := rfl
@[simp] theorem setPc_ioDraws (t : Addr) (s : State) : (setPc t s).ioDraws = s.ioDraws := rfl
@[simp] theorem setPc_ioEvents (t : Addr) (s : State) : (setPc t s).ioEvents = s.ioEvents := rfl

/-! ### setFlags -/

@[simp] theorem setFlags_a (f : Flags) (s : State) : (setFlags f s).a = s.a := rfl
@[simp] theorem setFlags_b (f : Flags) (s : State) : (setFlags f s).b = s.b := rfl
@[simp] theorem setFlags_c (f : Flags) (s : State) : (setFlags f s).c = s.c := rfl
@[simp] theorem setFlags_x (f : Flags) (s : State) : (setFlags f s).x = s.x := rfl
@[simp] theorem setFlags_y (f : Flags) (s : State) : (setFlags f s).y = s.y := rfl
@[simp] theorem setFlags_pc (f : Flags) (s : State) : (setFlags f s).pc = s.pc := rfl
@[simp] theorem setFlags_flags (f : Flags) (s : State) : (setFlags f s).flags = f := rfl
@[simp] theorem setFlags_mem (f : Flags) (s : State) : (setFlags f s).mem = s.mem := rfl
@[simp] theorem setFlags_image (f : Flags) (s : State) : (setFlags f s).image = s.image := rfl
@[simp] theorem setFlags_ready (f : Flags) (s : State) : (setFlags f s).ready = s.ready := rfl
@[simp] theorem setFlags_ioIntercept (f : Flags) (s : State) : (setFlags f s).ioIntercept = s.ioIntercept := rfl
@[simp] theorem setFlags_ioDraws (f : Flags) (s : State) : (setFlags f s).ioDraws = s.ioDraws := rfl
@[simp] theorem setFlags_ioEvents (f : Flags) (s : State) : (setFlags f s).ioEvents = s.ioEvents := rfl

/-! ### storeByte -/

@[simp] theorem storeByte_a (w : Addr) (v : Byte) (s : State) : (storeByte w v s).a = s.a := rfl
@[simp] theorem storeByte_b (w : Addr) (v : Byte) (s : State) : (storeByte w v s).b = s.b := rfl
@[simp] theorem storeByte_c (w : Addr) (v : Byte) (s : State) : (storeByte w v s).c = s.c := rfl
@[simp] theorem storeByte_x (w : Addr) (v : Byte) (s : State) : (storeByte w v s).x = s.x := rfl
@[simp] theorem storeByte_y (w : Addr) (v : Byte) (s : State) : (storeByte w v s).y = s.y := rfl
@[simp] theorem storeByte_pc (w : Addr) (v : Byte) (s : State) : (storeByte w v s).pc = s.pc := rfl
@[simp] theorem storeByte_flags (w : Addr) (v : Byte) (s : State) : (storeByte w v s).flags = s.flags := rfl
@[simp] theorem storeByte_mem (w : Addr) (v : Byte) (s : State) : (storeByte w v s).mem = s.mem.write w v := rfl
@[simp] theorem storeByte_image (w : Addr) (v : Byte) (s : State) : (storeByte w v s).image = s.image := rfl
@[simp] theorem storeByte_ready (w : Addr) (v : Byte) (s : State) : (storeByte w v s).ready = s.ready := rfl
@[simp] theorem storeByte_ioIntercept (w : Addr) (v : Byte) (s : State) : (storeByte w v s).ioIntercept = s.ioIntercept := rfl
@[simp] theorem storeByte_ioDraws (w : Addr) (v : Byte) (s : State) : (storeByte w v s).ioDraws = s.ioDraws := rfl
@[simp] theorem storeByte_ioEvents (w : Addr) (v : Byte) (s : State) : (storeByte w v s).ioEvents = s.ioEvents := rfl

/-! ### countDraw -/

@[simp] theorem countDraw_a (s : State) : (countDraw s).a = s.a := rfl
@[simp] theorem countDraw_b (s : State) : (countDraw s).b = s.b := rfl
@[simp] theorem countDraw_c (s : State) : (countDraw s).c = s.c := rfl
@[simp] theorem countDraw_x (s : State) : (countDraw s).x = s.x := rfl
@[simp] theorem countDraw_y (s : State) : (countDraw s).y = s.y := rfl
@[simp] theorem countDraw_pc (s : State) : (countDraw s).pc = s.pc := rfl
@[simp] theorem countDraw_flags (s : State) : (countDraw s).flags = s.flags := rfl
@[simp] theorem countDraw_mem (s : State) : (countDraw s).mem = s.mem := rfl
@[simp] theorem countDraw_image (s : State) : (countDraw s).image = s.image := rfl
@[simp] theorem countDraw_ready (s : State) : (countDraw s).ready = s.ready := rfl
@[simp] theorem countDraw_ioIntercept (s : State) : (countDraw s).ioIntercept = s.ioIntercept := rfl
@[simp] theorem countDraw_ioDraws (s : State) : (countDraw s).ioDraws = s.ioDraws + 1 := rfl
@[simp] theorem countDraw_ioEvents (s : State) : (countDraw s).ioEvents = s.ioEvents := rfl

/-! ### recordEvent -/

@[simp] theorem recordEvent_a (w : Addr) (v : Byte) (s : State) : (recordEvent w v s).a = s.a := rfl
@[simp] theorem recordEvent_b (w : Addr) (v : Byte) (s : State) : (recordEvent w v s).b = s.b := rfl
@[simp] theorem recordEvent_c (w : Addr) (v : Byte) (s : State) : (recordEvent w v s).c = s.c := rfl
@[simp] theorem recordEvent_x (w : Addr) (v : Byte) (s : State) : (recordEvent w v s).x = s.x := rfl
@[simp] theorem recordEvent_y (w : Addr) (v : Byte) (s : State) : (recordEvent w v s).y = s.y := rfl
@[simp] theorem recordEvent_pc (w : Addr) (v : Byte) (s : State) : (recordEvent w v s).pc = s.pc := rfl
@[simp] theorem recordEvent_flags (w : Addr) (v : Byte) (s : State) : (recordEvent w v s).flags = s.flags := rfl
@[simp] theorem recordEvent_mem (w : Addr) (v : Byte) (s : State) : (recordEvent w v s).mem = s.mem := rfl
@[simp] theorem recordEvent_image (w : Addr) (v : Byte) (s : State) : (recordEvent w v s).image = s.image := rfl
@[simp] theorem recordEvent_ready (w : Addr) (v : Byte) (s : State) : (recordEvent w v s).ready = s.ready := rfl
@[simp] theorem recordEvent_ioIntercept (w : Addr) (v : Byte) (s : State) : (recordEvent w v s).ioIntercept = s.ioIntercept := rfl
@[simp] theorem recordEvent_ioDraws (w : Addr) (v : Byte) (s : State) : (recordEvent w v s).ioDraws = s.ioDraws := rfl
@[simp] theorem recordEvent_ioEvents (w : Addr) (v : Byte) (s : State) : (recordEvent w v s).ioEvents = s.ioEvents ++ [⟨w, v⟩] := rfl

/-! ### writeReg -/

@[simp] theorem writeReg_pc (r : Reg) (v : Byte) (s : State) : (writeReg r v s).pc = s.pc := by cases r <;> rfl
@[simp] theorem writeReg_flags (r : Reg) (v : Byte) (s : State) : (writeReg r v s).flags = s.flags := by cases r <;> rfl
@[simp] theorem writeReg_mem (r : Reg) (v : Byte) (s : State) : (writeReg r v s).mem = s.mem := by cases r <;> rfl
@[simp] theorem writeReg_image (r : Reg) (v : Byte) (s : State) : (writeReg r v s).image = s.image := by cases r <;> rfl
@[simp] theorem writeReg_ready (r : Reg) (v : Byte) (s : State) : (writeReg r v s).ready = s.ready := by cases r <;> rfl
@[simp] theorem writeReg_ioIntercept (r : Reg) (v : Byte) (s : State) : (writeReg r v s).ioIntercept = s.ioIntercept := by cases r <;> rfl
@[simp] theorem writeReg_ioDraws (r : Reg) (v : Byte) (s : State) : (writeReg r v s).ioDraws = s.ioDraws := by cases r <;> rfl
@[simp] theorem writeReg_ioEvents (r : Reg) (v : Byte) (s : State) : (writeReg r v s).ioEvents = s.ioEvents := by cases r <;> rfl

@[simp] theorem readReg_writeReg_same (r : Reg) (v : Byte) (s : State) : readReg r (writeReg r v s) = v := by
  cases r <;> rfl

theorem readReg_writeReg_other {q r : Reg} (h : q ≠ r) (v : Byte) (s : State) :
    readReg q (writeReg r v s) = readReg q s := by
  cases q <;> cases r <;> first | rfl | exact absurd rfl h

theorem readReg_writeReg (q r : Reg) (v : Byte) (s : State) :
    readReg q (writeReg r v s) = if q = r then v else readReg q s := by
  split
  · next h => rw [h, readReg_writeReg_same]
  · next h => exact readReg_writeReg_other h v s

/-! ### readReg of the other updates -/

@[simp] theorem readReg_setPc (q : Reg) (t : Addr) (s : State) : readReg q (setPc t s) = readReg q s := by cases q <;> rfl
@[simp] theorem readReg_setFlags (q : Reg) (f : Flags) (s : State) : readReg q (setFlags f s) = readReg q s := by cases q <;> rfl
@[simp] theorem readReg_storeByte (q : Reg) (w : Addr) (v : Byte) (s : State) : readReg q (storeByte w v s) = readReg q s := by cases q <;> rfl
@[simp] theorem readReg_countDraw (q : Reg) (s : State) : readReg q (countDraw s) = readReg q s := by cases q <;> rfl
@[simp] theorem readReg_recordEvent (q : Reg) (w : Addr) (v : Byte) (s : State) : readReg q (recordEvent w v s) = readReg q s := by cases q <;> rfl

/-! ### spWrite: two stores, so only mem changes -/

@[simp] theorem spWrite_a (v : Addr) (s : State) : (spWrite v s).a = s.a := rfl
@[simp] theorem spWrite_b (v : Addr) (s : State) : (spWrite v s).b = s.b := rfl
@[simp] theorem spWrite_c (v : Addr) (s : State) : (spWrite v s).c = s.c := rfl
@[simp] theorem spWrite_x (v : Addr) (s : State) : (spWrite v s).x = s.x := rfl
@[simp] theorem spWrite_y (v : Addr) (s : State) : (spWrite v s).y = s.y := rfl
@[simp] theorem spWrite_pc (v : Addr) (s : State) : (spWrite v s).pc = s.pc := rfl
@[simp] theorem spWrite_flags (v : Addr) (s : State) : (spWrite v s).flags = s.flags := rfl
theorem spWrite_mem (v : Addr) (s : State) :
    (spWrite v s).mem = (s.mem.write Config.spHiAddr (hiByte v)).write Config.spLoAddr (loByte v) := rfl
@[simp] theorem spWrite_image (v : Addr) (s : State) : (spWrite v s).image = s.image := rfl
@[simp] theorem spWrite_ready (v : Addr) (s : State) : (spWrite v s).ready = s.ready := rfl
@[simp] theorem spWrite_ioIntercept (v : Addr) (s : State) : (spWrite v s).ioIntercept = s.ioIntercept := rfl
@[simp] theorem spWrite_ioDraws (v : Addr) (s : State) : (spWrite v s).ioDraws = s.ioDraws := rfl
@[simp] theorem spWrite_ioEvents (v : Addr) (s : State) : (spWrite v s).ioEvents = s.ioEvents := rfl

@[simp] theorem readReg_spWrite (q : Reg) (v : Addr) (s : State) : readReg q (spWrite v s) = readReg q s := by
  cases q <;> rfl

/-! ### memWrite: the store, and the event where the host intercepts -/

@[simp] theorem memWrite_a (w : Addr) (v : Byte) (s : State) : (memWrite w v s).a = s.a := by
  unfold memWrite; split <;> rfl
@[simp] theorem memWrite_b (w : Addr) (v : Byte) (s : State) : (memWrite w v s).b = s.b := by
  unfold memWrite; split <;> rfl
@[simp] theorem memWrite_c (w : Addr) (v : Byte) (s : State) : (memWrite w v s).c = s.c := by
  unfold memWrite; split <;> rfl
@[simp] theorem memWrite_x (w : Addr) (v : Byte) (s : State) : (memWrite w v s).x = s.x := by
  unfold memWrite; split <;> rfl
@[simp] theorem memWrite_y (w : Addr) (v : Byte) (s : State) : (memWrite w v s).y = s.y := by
  unfold memWrite; split <;> rfl
@[simp] theorem memWrite_pc (w : Addr) (v : Byte) (s : State) : (memWrite w v s).pc = s.pc := by
  unfold memWrite; split <;> rfl
@[simp] theorem memWrite_flags (w : Addr) (v : Byte) (s : State) : (memWrite w v s).flags = s.flags := by
  unfold memWrite; split <;> rfl
@[simp] theorem memWrite_mem (w : Addr) (v : Byte) (s : State) : (memWrite w v s).mem = s.mem.write w v := by
  unfold memWrite; split <;> rfl
@[simp] theorem memWrite_image (w : Addr) (v : Byte) (s : State) : (memWrite w v s).image = s.image := by
  unfold memWrite; split <;> rfl
@[simp] theorem memWrite_ready (w : Addr) (v : Byte) (s : State) : (memWrite w v s).ready = s.ready := by
  unfold memWrite; split <;> rfl
@[simp] theorem memWrite_ioIntercept (w : Addr) (v : Byte) (s : State) : (memWrite w v s).ioIntercept = s.ioIntercept := by
  unfold memWrite; split <;> rfl
@[simp] theorem memWrite_ioDraws (w : Addr) (v : Byte) (s : State) : (memWrite w v s).ioDraws = s.ioDraws := by
  unfold memWrite; split <;> rfl
theorem memWrite_ioEvents (w : Addr) (v : Byte) (s : State) :
    (memWrite w v s).ioEvents = if intercepted w s then s.ioEvents ++ [⟨w, v⟩] else s.ioEvents := by
  unfold memWrite; split <;> rfl

@[simp] theorem readReg_memWrite (q : Reg) (w : Addr) (v : Byte) (s : State) :
    readReg q (memWrite w v s) = readReg q s := by
  unfold memWrite; split <;> simp

/-! ### the state after memRead: at most the draw counter changes -/

@[simp] theorem memRead_a (w : Addr) (s : State) : (memRead w s).2.a = s.a := by
  unfold memRead; split <;> rfl
@[simp] theorem memRead_b (w : Addr) (s : State) : (memRead w s).2.b = s.b := by
  unfold memRead; split <;> rfl
@[simp] theorem memRead_c (w : Addr) (s : State) : (memRead w s).2.c = s.c := by
  unfold memRead; split <;> rfl
@[simp] theorem memRead_x (w : Addr) (s : State) : (memRead w s).2.x = s.x := by
  unfold memRead; split <;> rfl
@[simp] theorem memRead_y (w : Addr) (s : State) : (memRead w s).2.y = s.y := by
  unfold memRead; split <;> rfl
@[simp] theorem memRead_pc (w : Addr) (s : State) : (memRead w s).2.pc = s.pc := by
  unfold memRead; split <;> rfl
@[simp] theorem memRead_flags (w : Addr) (s : State) : (memRead w s).2.flags = s.flags := by
  unfold memRead; split <;> rfl
@[simp] theorem memRead_mem (w : Addr) (s : State) : (memRead w s).2.mem = s.mem := by
  unfold memRead; split <;> rfl
@[simp] theorem memRead_image (w : Addr) (s : State) : (memRead w s).2.image = s.image := by
  unfold memRead; split <;> rfl
@[simp] theorem memRead_ready (w : Addr) (s : State) : (memRead w s).2.ready = s.ready := by
  unfold memRead; split <;> rfl
@[simp] theorem memRead_ioIntercept (w : Addr) (s : State) : (memRead w s).2.ioIntercept = s.ioIntercept := by
  unfold memRead; split <;> rfl
theorem memRead_ioDraws (w : Addr) (s : State) :
    (memRead w s).2.ioDraws = if intercepted w s then s.ioDraws + 1 else s.ioDraws := by
  unfold memRead; split <;> rfl
@[simp] theorem memRead_ioEvents (w : Addr) (s : State) : (memRead w s).2.ioEvents = s.ioEvents := by
  unfold memRead; split <;> rfl

@[simp] theorem readReg_memRead (q : Reg) (w : Addr) (s : State) : readReg q (memRead w s).2 = readReg q s := by
  unfold memRead; split <;> simp

end Sys2Proof.Machine
end

