-- ==== Sys2Proof/Laws/Word.lean ====
section
/-! SUPPORT. Byte order: the two bytes of a 16-bit value and the value of two bytes (R6, R41). -/

namespace Sys2Proof

theorem bytePair_toNat (hi lo : Byte) : (bytePair hi lo).toNat = hi.toNat * 256 + lo.toNat := by
  have h : (bytePair hi lo).toNat = (hi ++ lo).toNat := rfl
  rw [h, BitVec.toNat_append, ← Nat.shiftLeft_add_eq_or_of_lt lo.isLt, Nat.shiftLeft_eq]

theorem hiByte_toNat (v : Addr) : (hiByte v).toNat = v.toNat / 256 := by
  have h := v.isLt
  simp only [hiByte, BitVec.extractLsb'_toNat, Nat.shiftRight_eq_div_pow]
  omega

theorem loByte_toNat (v : Addr) : (loByte v).toNat = v.toNat % 256 := by
  simp [loByte, BitVec.extractLsb'_toNat]

@[simp] theorem hiByte_bytePair (hi lo : Byte) : hiByte (bytePair hi lo) = hi := by
  have h1 := hi.isLt
  have h2 := lo.isLt
  apply BitVec.eq_of_toNat_eq
  rw [hiByte_toNat, bytePair_toNat]
  omega

@[simp] theorem loByte_bytePair (hi lo : Byte) : loByte (bytePair hi lo) = lo := by
  have h1 := hi.isLt
  have h2 := lo.isLt
  apply BitVec.eq_of_toNat_eq
  rw [loByte_toNat, bytePair_toNat]
  omega

@[simp] theorem bytePair_hiByte_loByte (v : Addr) : bytePair (hiByte v) (loByte v) = v := by
  apply BitVec.eq_of_toNat_eq
  rw [bytePair_toNat, hiByte_toNat, loByte_toNat]
  omega

end Sys2Proof
end

