-- ==== Sys2Proof/Laws/Ops.lean ====
section
/-! SUPPORT. What each shared operation does, said once: byte access with and without interception, the stack pointer, the
accumulator operations, the stack operations. Provers cite these and unfold nothing. -/

namespace Sys2Proof.Machine

/-! ## Byte access (R35, R36, R47) -/

theorem intercepted_iff {a : Addr} {s : State} :
    intercepted a s = true ↔ s.ioIntercept = .oracle ∧ isHostIo a = true := by
  simp [intercepted]

theorem isHostIo_iff {a : Addr} : isHostIo a = true ↔ 0x0FF2 ≤ a.toNat ∧ a.toNat ≤ 0x0FFF := by
  have h1 : Config.ioFirst.toNat = 0x0FF2 := rfl
  have h2 : Config.ioLast.toNat = 0x0FFF := rfl
  simp only [isHostIo, h1, h2, Bool.and_eq_true, decide_eq_true_eq]

/-- With IO_INTERCEPT = none no access is intercepted (R47). -/
theorem intercepted_of_none {s : State} (h : s.ioIntercept = .none) (a : Addr) : intercepted a s = false := by
  simp [intercepted, h]

@[simp] theorem intercepted_spHi (s : State) : intercepted Config.spHiAddr s = false := by
  have h : isHostIo Config.spHiAddr = false := rfl
  simp [intercepted, h]

@[simp] theorem intercepted_spLo (s : State) : intercepted Config.spLoAddr s = false := by
  have h : isHostIo Config.spLoAddr = false := rfl
  simp [intercepted, h]

/-- Interception depends on the parameter alone. -/
theorem intercepted_congr {s t : State} (h : t.ioIntercept = s.ioIntercept) (a : Addr) :
    intercepted a t = intercepted a s := by
  simp [intercepted, h]

/-- A read that is not intercepted returns the stored byte and changes nothing (R35). -/
theorem memRead_plain {a : Addr} {s : State} (h : intercepted a s = false) : memRead a s = (loadByte a s, s) := by
  simp [memRead, h]

/-- An intercepted read returns the next draw and counts it (R47). -/
theorem memRead_drawn {a : Addr} {s : State} (h : intercepted a s = true) :
    memRead a s = (Config.ioDraw s.ioDraws, countDraw s) := by
  simp [memRead, h]

/-- A write that is not intercepted stores and nothing else (R36). -/
theorem memWrite_plain {a : Addr} {v : Byte} {s : State} (h : intercepted a s = false) :
    memWrite a v s = storeByte a v s := by
  simp [memWrite, h]

/-- An intercepted write stores and is an event (R47). -/
theorem memWrite_observed {a : Addr} {v : Byte} {s : State} (h : intercepted a s = true) :
    memWrite a v s = recordEvent a v (storeByte a v s) := by
  simp [memWrite, h]

theorem loadByte_of_mem_eq {s t : State} (h : t.mem = s.mem) (a : Addr) : loadByte a t = loadByte a s := by
  simp [loadByte, h]

theorem loadByte_storeByte_same {s : State} (hm : s.mem.wf = true) (a : Addr) (v : Byte) :
    loadByte a (storeByte a v s) = v :=
  Memory.read_write_same hm a v

theorem loadByte_storeByte_other {a w : Addr} (h : a ≠ w) (v : Byte) (s : State) :
    loadByte a (storeByte w v s) = loadByte a s :=
  Memory.read_write_other h s.mem v

theorem loadByte_memWrite_same {s : State} (hm : s.mem.wf = true) (a : Addr) (v : Byte) :
    loadByte a (memWrite a v s) = v := by
  rw [loadByte, memWrite_mem]
  exact Memory.read_write_same hm a v

theorem loadByte_memWrite_other {a w : Addr} (h : a ≠ w) (v : Byte) (s : State) :
    loadByte a (memWrite w v s) = loadByte a s := by
  rw [loadByte, memWrite_mem]
  exact Memory.read_write_other h s.mem v

@[simp] theorem loadByte_memRead (a w : Addr) (s : State) : loadByte a (memRead w s).2 = loadByte a s := by
  rw [loadByte, memRead_mem, loadByte]

@[simp] theorem loadByte_writeReg (a : Addr) (r : Reg) (v : Byte) (s : State) :
    loadByte a (writeReg r v s) = loadByte a s := by
  rw [loadByte, writeReg_mem, loadByte]

@[simp] theorem loadByte_setPc (a t : Addr) (s : State) : loadByte a (setPc t s) = loadByte a s := rfl

@[simp] theorem loadByte_setFlags (a : Addr) (f : Flags) (s : State) : loadByte a (setFlags f s) = loadByte a s := rfl

/-! ## XY and the indexed address (R15, R65) -/

theorem xy_toNat (s : State) : (xy s).toNat = s.x.toNat * 256 + s.y.toNat := bytePair_toNat s.x s.y

theorem eaIdx_toNat (off : Byte) (s : State) :
    (eaIdx off s).toNat = (s.x.toNat * 256 + s.y.toNat + off.toNat) % 65536 := by
  have h := off.isLt
  rw [eaIdx, BitVec.toNat_add, BitVec.toNat_setWidth, Nat.mod_eq_of_lt (by omega : off.toNat < 2 ^ 16), xy_toNat]

/-! ## The stack pointer (R26, R38, R39) -/

/-- SPWrite is the two MemWrites of R39: neither is ever intercepted. -/
theorem spWrite_eq_memWrite (v : Addr) (s : State) :
    spWrite v s = memWrite Config.spLoAddr (loByte v) (memWrite Config.spHiAddr (hiByte v) s) := by
  rw [memWrite_plain (intercepted_spLo _), memWrite_plain (intercepted_spHi _), spWrite]

/-- SPRead is the two MemReads of R38: neither is ever intercepted, so neither changes the state. -/
theorem spRead_eq_memRead (s : State) :
    spRead s = bytePair (memRead Config.spHiAddr s).1 (memRead Config.spLoAddr (memRead Config.spHiAddr s).2).1 := by
  rw [memRead_plain (intercepted_spHi s), memRead_plain (intercepted_spLo s), spRead]

theorem spWrite_wf {s : State} (hm : s.mem.wf = true) (v : Addr) : (spWrite v s).mem.wf = true :=
  Memory.write_wf (Memory.write_wf hm _ _) _ _

theorem loadByte_spWrite_hi {s : State} (hm : s.mem.wf = true) (v : Addr) :
    loadByte Config.spHiAddr (spWrite v s) = hiByte v := by
  rw [spWrite, loadByte_storeByte_other (by decide), loadByte_storeByte_same hm]

theorem loadByte_spWrite_lo {s : State} (hm : s.mem.wf = true) (v : Addr) :
    loadByte Config.spLoAddr (spWrite v s) = loByte v :=
  loadByte_storeByte_same (Memory.write_wf hm _ _) _ _

theorem loadByte_spWrite_other {a : Addr} (hhi : a ≠ Config.spHiAddr) (hlo : a ≠ Config.spLoAddr) (v : Addr) (s : State) :
    loadByte a (spWrite v s) = loadByte a s := by
  rw [spWrite, loadByte_storeByte_other hlo, loadByte_storeByte_other hhi]

/-- SP reads back as it was written (R26). -/
theorem spRead_spWrite {s : State} (hm : s.mem.wf = true) (v : Addr) : spRead (spWrite v s) = v := by
  rw [spRead, loadByte_spWrite_hi hm, loadByte_spWrite_lo hm, bytePair_hiByte_loByte]

/-- SP changes only where one of its two bytes does. -/
theorem spRead_congr {s t : State} (hhi : loadByte Config.spHiAddr t = loadByte Config.spHiAddr s)
    (hlo : loadByte Config.spLoAddr t = loadByte Config.spLoAddr s) : spRead t = spRead s := by
  simp only [spRead, hhi, hlo]

theorem memWrite_wf {s : State} (hm : s.mem.wf = true) (a : Addr) (v : Byte) : (memWrite a v s).mem.wf = true := by
  rw [memWrite_mem]
  exact Memory.write_wf hm a v

/-- The bytes after one write, the read address given. -/
theorem loadByte_memWrite {s : State} (hm : s.mem.wf = true) (a w : Addr) (v : Byte) :
    loadByte a (memWrite w v s) = if a = w then v else loadByte a s := by
  split
  · next h => rw [h, loadByte_memWrite_same hm]
  · next h => exact loadByte_memWrite_other h v s

/-- The bytes after SPWrite, the read address given. -/
theorem loadByte_spWrite {s : State} (hm : s.mem.wf = true) (a v : Addr) :
    loadByte a (spWrite v s) =
      if a = Config.spLoAddr then loByte v else if a = Config.spHiAddr then hiByte v else loadByte a s := by
  split
  · next h => rw [h, loadByte_spWrite_lo hm]
  · next hlo =>
    split
    · next h => rw [h, loadByte_spWrite_hi hm]
    · next hhi => exact loadByte_spWrite_other hhi hlo v s

/-- SP is the same in two states whose memories are the same. -/
theorem spRead_of_mem_eq {s t : State} (h : t.mem = s.mem) : spRead t = spRead s :=
  spRead_congr (loadByte_of_mem_eq h _) (loadByte_of_mem_eq h _)

/-! ## No data access looks at the flags (R23) -/

@[simp] theorem xy_setFlags (f : Flags) (s : State) : xy (setFlags f s) = xy s := rfl

@[simp] theorem eaIdx_setFlags (off : Byte) (f : Flags) (s : State) : eaIdx off (setFlags f s) = eaIdx off s := rfl

@[simp] theorem spRead_setFlags (f : Flags) (s : State) : spRead (setFlags f s) = spRead s := rfl

theorem writeReg_setFlags (r : Reg) (v : Byte) (f : Flags) (s : State) :
    writeReg r v (setFlags f s) = setFlags f (writeReg r v s) := by cases r <;> rfl

theorem spWrite_setFlags (v : Addr) (f : Flags) (s : State) : spWrite v (setFlags f s) = setFlags f (spWrite v s) := rfl

theorem memWrite_setFlags (a : Addr) (v : Byte) (f : Flags) (s : State) :
    memWrite a v (setFlags f s) = setFlags f (memWrite a v s) := by
  have h : intercepted a (setFlags f s) = intercepted a s := rfl
  unfold memWrite
  rw [h]
  split <;> rfl

theorem memRead_setFlags (a : Addr) (f : Flags) (s : State) :
    memRead a (setFlags f s) = ((memRead a s).1, setFlags f (memRead a s).2) := by
  have h : intercepted a (setFlags f s) = intercepted a s := rfl
  unfold memRead
  rw [h]
  split <;> rfl

@[simp] theorem setFlags_setFlags (f g : Flags) (s : State) : setFlags f (setFlags g s) = setFlags f s := rfl

/-! ## The accumulator operations (R94, R95, R106) -/

theorem addToA_eq (n : Byte) (s : State) :
    addToA n s = setFlags (arithFlags (s.a + n) (decide (s.a.toNat + n.toNat > 255))) (writeReg .A (s.a + n) s) := by
  have h : BitVec.ofNat 8 (s.a.toNat + n.toNat) = s.a + n := by
    apply BitVec.eq_of_toNat_eq
    rw [BitVec.toNat_ofNat, BitVec.toNat_add]
  simp only [addToA, h]

theorem subFromA_eq (n : Byte) (s : State) :
    subFromA n s = setFlags (arithFlags (s.a - n) (decide (s.a.toNat < n.toNat))) (writeReg .A (s.a - n) s) := by
  have h : BitVec.ofInt 8 ((s.a.toNat : Int) - (n.toNat : Int)) = s.a - n := by
    apply BitVec.eq_of_toNat_eq
    have h1 := s.a.isLt
    have h2 := n.isLt
    rw [BitVec.toNat_ofInt, BitVec.toNat_sub]
    omega
  simp only [subFromA, h]

theorem compareA_eq (n : Byte) (s : State) : compareA n s = setFlags (cmpFlags s.a n) s := rfl

theorem jumpIf_eq (cond : Bool) (tgt : Addr) (s : State) : jumpIf cond tgt s = setPc (if cond then tgt else s.pc) s := by
  cases cond <;> rfl

/-! ## The stack operations (R123, R124, R127, R128) -/

/-- PUSH stores the decremented SP, then the byte at it: no register, flag or pc changes (R127). -/
theorem pushByte_eq (v : Byte) (s : State) :
    pushByte v s = memWrite (spRead s - 1#16) v (spWrite (spRead s - 1#16) s) := rfl

theorem pushByte_wf {s : State} (hm : s.mem.wf = true) (v : Byte) : (pushByte v s).mem.wf = true :=
  memWrite_wf (spWrite_wf hm _) _ _

/-- PUSH leaves every byte alone but the two of SP and the one at the new SP. -/
theorem loadByte_pushByte_other {a : Addr} {s : State} (hhi : a ≠ Config.spHiAddr) (hlo : a ≠ Config.spLoAddr)
    (htop : a ≠ spRead s - 1#16) (v : Byte) : loadByte a (pushByte v s) = loadByte a s := by
  rw [pushByte_eq, loadByte_memWrite_other htop, loadByte_spWrite_other hhi hlo]

/-- POP answers the byte at SP, and the state with SP incremented (R128). -/
theorem popByte_eq (s : State) :
    popByte s = ((memRead (spRead s) s).1, spWrite (spRead s + 1#16) (memRead (spRead s) s).2) := rfl

theorem popByte_wf {s : State} (hm : s.mem.wf = true) : (popByte s).2.mem.wf = true := by
  rw [popByte_eq]
  exact spWrite_wf (by rw [memRead_mem]; exact hm) _

/-- CALL's stack part stores SP - 2, then the return address there, high byte first (R123). -/
theorem pushReturn_eq (ret : Addr) (s : State) :
    pushReturn ret s =
      memWrite (spRead s - 2#16 + 1#16) (loByte ret)
        (memWrite (spRead s - 2#16) (hiByte ret) (spWrite (spRead s - 2#16) s)) := rfl

theorem pushReturn_wf {s : State} (hm : s.mem.wf = true) (ret : Addr) : (pushReturn ret s).mem.wf = true :=
  memWrite_wf (memWrite_wf (spWrite_wf hm _) _ _) _ _

/-- RET's stack part answers the two bytes at SP, high byte first, and the state with SP incremented by 2 (R124). -/
theorem popReturn_eq (s : State) :
    popReturn s =
      (bytePair (memRead (spRead s) s).1 (memRead (spRead s + 1#16) (memRead (spRead s) s).2).1,
        spWrite (spRead s + 2#16) (memRead (spRead s + 1#16) (memRead (spRead s) s).2).2) := rfl

theorem popReturn_wf {s : State} (hm : s.mem.wf = true) : (popReturn s).2.mem.wf = true := by
  rw [popReturn_eq]
  exact spWrite_wf (by rw [memRead_mem, memRead_mem]; exact hm) _

end Sys2Proof.Machine
end

