-- ==== Sys2Proof/Laws/PerInstr.lean ====
section
/-! SUPPORT. Statements made per instruction, one lemma per constructor of Instr. Family Shape: the bytes of an instruction
begin with its row's opcode byte and are as many as its format has (R60). -/

namespace Sys2Proof.Laws

/-- The encoding of i under any code map begins with its row's opcode and has its format's length (R60). -/
def Shape.Statement (i : Instr) : Prop :=
  ∀ m : CodeMap, (encodeWith m i).head? = some (m.opcode i.op) ∧ (encodeWith m i).length = i.op.format.length

theorem Shape.nop : Shape.Statement (.nop) := fun _ => ⟨rfl, rfl⟩
theorem Shape.ldReg (r r2 : Reg) : Shape.Statement (.ldReg r r2) := fun _ => ⟨rfl, rfl⟩
theorem Shape.ldImm (r : Reg) (n : Byte) : Shape.Statement (.ldImm r n) := fun _ => ⟨rfl, rfl⟩
theorem Shape.ldInd (r : Reg) (a : Addr) : Shape.Statement (.ldInd r a) := fun _ => ⟨rfl, rfl⟩
theorem Shape.ldIdx (r : Reg) (o : Byte) : Shape.Statement (.ldIdx r o) := fun _ => ⟨rfl, rfl⟩
theorem Shape.stReg (r r2 : Reg) : Shape.Statement (.stReg r r2) := fun _ => ⟨rfl, rfl⟩
theorem Shape.stInd (r : Reg) (a : Addr) : Shape.Statement (.stInd r a) := fun _ => ⟨rfl, rfl⟩
theorem Shape.stIdx (r : Reg) (o : Byte) : Shape.Statement (.stIdx r o) := fun _ => ⟨rfl, rfl⟩
theorem Shape.addReg (r : Reg) : Shape.Statement (.addReg r) := fun _ => ⟨rfl, rfl⟩
theorem Shape.addImm (n : Byte) : Shape.Statement (.addImm n) := fun _ => ⟨rfl, rfl⟩
theorem Shape.addInd (a : Addr) : Shape.Statement (.addInd a) := fun _ => ⟨rfl, rfl⟩
theorem Shape.addIdx (o : Byte) : Shape.Statement (.addIdx o) := fun _ => ⟨rfl, rfl⟩
theorem Shape.subReg (r : Reg) : Shape.Statement (.subReg r) := fun _ => ⟨rfl, rfl⟩
theorem Shape.subImm (n : Byte) : Shape.Statement (.subImm n) := fun _ => ⟨rfl, rfl⟩
theorem Shape.subInd (a : Addr) : Shape.Statement (.subInd a) := fun _ => ⟨rfl, rfl⟩
theorem Shape.subIdx (o : Byte) : Shape.Statement (.subIdx o) := fun _ => ⟨rfl, rfl⟩
theorem Shape.cmpReg (r : Reg) : Shape.Statement (.cmpReg r) := fun _ => ⟨rfl, rfl⟩
theorem Shape.cmpImm (n : Byte) : Shape.Statement (.cmpImm n) := fun _ => ⟨rfl, rfl⟩
theorem Shape.cmpInd (a : Addr) : Shape.Statement (.cmpInd a) := fun _ => ⟨rfl, rfl⟩
theorem Shape.cmpIdx (o : Byte) : Shape.Statement (.cmpIdx o) := fun _ => ⟨rfl, rfl⟩
theorem Shape.inc : Shape.Statement (.inc) := fun _ => ⟨rfl, rfl⟩
theorem Shape.dec : Shape.Statement (.dec) := fun _ => ⟨rfl, rfl⟩
theorem Shape.jmp (t : Addr) : Shape.Statement (.jmp t) := fun _ => ⟨rfl, rfl⟩
theorem Shape.jc (t : Addr) : Shape.Statement (.jc t) := fun _ => ⟨rfl, rfl⟩
theorem Shape.jnc (t : Addr) : Shape.Statement (.jnc t) := fun _ => ⟨rfl, rfl⟩
theorem Shape.jp (t : Addr) : Shape.Statement (.jp t) := fun _ => ⟨rfl, rfl⟩
theorem Shape.jnp (t : Addr) : Shape.Statement (.jnp t) := fun _ => ⟨rfl, rfl⟩
theorem Shape.jz (t : Addr) : Shape.Statement (.jz t) := fun _ => ⟨rfl, rfl⟩
theorem Shape.jnz (t : Addr) : Shape.Statement (.jnz t) := fun _ => ⟨rfl, rfl⟩
theorem Shape.js (t : Addr) : Shape.Statement (.js t) := fun _ => ⟨rfl, rfl⟩
theorem Shape.jns (t : Addr) : Shape.Statement (.jns t) := fun _ => ⟨rfl, rfl⟩
theorem Shape.call (t : Addr) : Shape.Statement (.call t) := fun _ => ⟨rfl, rfl⟩
theorem Shape.ret : Shape.Statement (.ret) := fun _ => ⟨rfl, rfl⟩
theorem Shape.push (r : Reg) : Shape.Statement (.push r) := fun _ => ⟨rfl, rfl⟩
theorem Shape.pop (r : Reg) : Shape.Statement (.pop r) := fun _ => ⟨rfl, rfl⟩

/-- The family over all instructions. -/
theorem Shape.all (i : Instr) : Shape.Statement i := by
  intro m
  cases i <;> exact ⟨rfl, rfl⟩

end Sys2Proof.Laws
end

