-- ==== Sys2Proof/Laws/Stack.lean ====
section
/-! SUPPORT. What the stack operations leave alone: one lemma per field, and the registers (R123, R124, R127, R128). -/

namespace Sys2Proof.Machine

/-! ### pushByte -/

@[simp] theorem pushByte_a (v : Byte) (s : State) : (pushByte v s).a = s.a := by simp [pushByte_eq]
@[simp] theorem pushByte_b (v : Byte) (s : State) : (pushByte v s).b = s.b := by simp [pushByte_eq]
@[simp] theorem pushByte_c (v : Byte) (s : State) : (pushByte v s).c = s.c := by simp [pushByte_eq]
@[simp] theorem pushByte_x (v : Byte) (s : State) : (pushByte v s).x = s.x := by simp [pushByte_eq]
@[simp] theorem pushByte_y (v : Byte) (s : State) : (pushByte v s).y = s.y := by simp [pushByte_eq]
@[simp] theorem pushByte_pc (v : Byte) (s : State) : (pushByte v s).pc = s.pc := by simp [pushByte_eq]
@[simp] theorem pushByte_flags (v : Byte) (s : State) : (pushByte v s).flags = s.flags := by simp [pushByte_eq]
@[simp] theorem pushByte_image (v : Byte) (s : State) : (pushByte v s).image = s.image := by simp [pushByte_eq]
@[simp] theorem pushByte_ready (v : Byte) (s : State) : (pushByte v s).ready = s.ready := by simp [pushByte_eq]
@[simp] theorem pushByte_ioIntercept (v : Byte) (s : State) : (pushByte v s).ioIntercept = s.ioIntercept := by simp [pushByte_eq]
@[simp] theorem pushByte_ioDraws (v : Byte) (s : State) : (pushByte v s).ioDraws = s.ioDraws := by simp [pushByte_eq]
@[simp] theorem readReg_pushByte (q : Reg) (v : Byte) (s : State) : readReg q (pushByte v s) = readReg q s := by simp [pushByte_eq]

/-! ### popByte -/

@[simp] theorem popByte_a (s : State) : (popByte s).2.a = s.a := by simp [popByte_eq]
@[simp] theorem popByte_b (s : State) : (popByte s).2.b = s.b := by simp [popByte_eq]
@[simp] theorem popByte_c (s : State) : (popByte s).2.c = s.c := by simp [popByte_eq]
@[simp] theorem popByte_x (s : State) : (popByte s).2.x = s.x := by simp [popByte_eq]
@[simp] theorem popByte_y (s : State) : (popByte s).2.y = s.y := by simp [popByte_eq]
@[simp] theorem popByte_pc (s : State) : (popByte s).2.pc = s.pc := by simp [popByte_eq]
@[simp] theorem popByte_flags (s : State) : (popByte s).2.flags = s.flags := by simp [popByte_eq]
@[simp] theorem popByte_image (s : State) : (popByte s).2.image = s.image := by simp [popByte_eq]
@[simp] theorem popByte_ready (s : State) : (popByte s).2.ready = s.ready := by simp [popByte_eq]
@[simp] theorem popByte_ioIntercept (s : State) : (popByte s).2.ioIntercept = s.ioIntercept := by simp [popByte_eq]
@[simp] theorem popByte_ioEvents (s : State) : (popByte s).2.ioEvents = s.ioEvents := by simp [popByte_eq]
@[simp] theorem readReg_popByte (q : Reg) (s : State) : readReg q (popByte s).2 = readReg q s := by simp [popByte_eq]

/-! ### pushReturn -/

@[simp] theorem pushReturn_a (v : Addr) (s : State) : (pushReturn v s).a = s.a := by simp [pushReturn_eq]
@[simp] theorem pushReturn_b (v : Addr) (s : State) : (pushReturn v s).b = s.b := by simp [pushReturn_eq]
@[simp] theorem pushReturn_c (v : Addr) (s : State) : (pushReturn v s).c = s.c := by simp [pushReturn_eq]
@[simp] theorem pushReturn_x (v : Addr) (s : State) : (pushReturn v s).x = s.x := by simp [pushReturn_eq]
@[simp] theorem pushReturn_y (v : Addr) (s : State) : (pushReturn v s).y = s.y := by simp [pushReturn_eq]
@[simp] theorem pushReturn_pc (v : Addr) (s : State) : (pushReturn v s).pc = s.pc := by simp [pushReturn_eq]
@[simp] theorem pushReturn_flags (v : Addr) (s : State) : (pushReturn v s).flags = s.flags := by simp [pushReturn_eq]
@[simp] theorem pushReturn_image (v : Addr) (s : State) : (pushReturn v s).image = s.image := by simp [pushReturn_eq]
@[simp] theorem pushReturn_ready (v : Addr) (s : State) : (pushReturn v s).ready = s.ready := by simp [pushReturn_eq]
@[simp] theorem pushReturn_ioIntercept (v : Addr) (s : State) : (pushReturn v s).ioIntercept = s.ioIntercept := by simp [pushReturn_eq]
@[simp] theorem pushReturn_ioDraws (v : Addr) (s : State) : (pushReturn v s).ioDraws = s.ioDraws := by simp [pushReturn_eq]
@[simp] theorem readReg_pushReturn (q : Reg) (v : Addr) (s : State) : readReg q (pushReturn v s) = readReg q s := by simp [pushReturn_eq]

/-! ### popReturn -/

@[simp] theorem popReturn_a (s : State) : (popReturn s).2.a = s.a := by simp [popReturn_eq]
@[simp] theorem popReturn_b (s : State) : (popReturn s).2.b = s.b := by simp [popReturn_eq]
@[simp] theorem popReturn_c (s : State) : (popReturn s).2.c = s.c := by simp [popReturn_eq]
@[simp] theorem popReturn_x (s : State) : (popReturn s).2.x = s.x := by simp [popReturn_eq]
@[simp] theorem popReturn_y (s : State) : (popReturn s).2.y = s.y := by simp [popReturn_eq]
@[simp] theorem popReturn_pc (s : State) : (popReturn s).2.pc = s.pc := by simp [popReturn_eq]
@[simp] theorem popReturn_flags (s : State) : (popReturn s).2.flags = s.flags := by simp [popReturn_eq]
@[simp] theorem popReturn_image (s : State) : (popReturn s).2.image = s.image := by simp [popReturn_eq]
@[simp] theorem popReturn_ready (s : State) : (popReturn s).2.ready = s.ready := by simp [popReturn_eq]
@[simp] theorem popReturn_ioIntercept (s : State) : (popReturn s).2.ioIntercept = s.ioIntercept := by simp [popReturn_eq]
@[simp] theorem popReturn_ioEvents (s : State) : (popReturn s).2.ioEvents = s.ioEvents := by simp [popReturn_eq]
@[simp] theorem readReg_popReturn (q : Reg) (s : State) : readReg q (popReturn s).2 = readReg q s := by simp [popReturn_eq]

end Sys2Proof.Machine
end

