-- ==== Sys2Proof/Tests/Slice0.lean ====
section
/-! SUPPORT. Small tests, each of one step or one decoding, and a witness for the hypotheses of every obligation that has any.
Expected results are the spec's own: the vectors V<n> and E<n> of 95_test_vectors, and words written out from 30_encoding R59 to R61. -/

namespace Sys2Proof.Tests

open Sys2Proof.Machine

/-! ## Helpers -/

/-- A flags value from its four bits, in the order C, P, Z, S. -/
def fl (c p z s : Bool) : Flags := ⟨c, p, z, s⟩

/-- The next state, where there is one. -/
def nextOf : Host.Outcome State Fault Refusal → Option State
  | .next t => some t
  | .fault _ => none
  | .refused _ => none

/-- The fault, where there is one. -/
def faultOf : Host.Outcome State Fault Refusal → Option Fault
  | .next _ => none
  | .fault f => some f
  | .refused _ => none

/-- What decoding answers, as plain data. -/
def read (bytes : List Byte) : Option (Instr × List Byte) :=
  match decode bytes with
  | .ok d => some d
  | .error _ => none

/-- Why decoding answers nothing. -/
def readError (bytes : List Byte) : Option DecodeError :=
  match decode bytes with
  | .ok _ => none
  | .error e => some e

/-- A ready state with an image and pc, after reset. -/
def at_ (pc : Addr) (image : List Byte) : State := { State.reset with pc := pc, image := image }

/-- One step of an image that begins at pc = 0, from registers A, B, C, X, Y, flags and memory. -/
def run1 (a b c x y : Byte) (f : Flags) (mem : Memory) (image : List Byte) : Option State :=
  nextOf (step { State.reset with a := a, b := b, c := c, x := x, y := y, flags := f, mem := mem, image := image })

/-- The fault of one step. -/
def fault1 (pc : Addr) (image : List Byte) : Option Fault := faultOf (step (at_ pc image))

/-- The registers A, B, C, X, Y. -/
def regs (s : State) : List Byte := [s.a, s.b, s.c, s.x, s.y]

/-- The image an assembly yields, where it yields one. -/
def imageText (source : String) : Option (List Byte) :=
  match assemble source.toList with
  | .ok image => some image
  | .error _ => none

/-- The errors an assembly yields. -/
def errorsOf (source : String) : List AsmError :=
  match assemble source.toList with
  | .ok _ => []
  | .error es => es

/-! ## Well-formedness: an ill-formed term for each check, refused -/

theorem test_wf_accepts_a_fitting_instruction : RawInstr.wf ⟨.ldInd, [4, 65535]⟩ = true := by decide
theorem test_wf_refuses_missing_operand : RawInstr.wf ⟨.ldImm, [0]⟩ = false := by decide
theorem test_wf_refuses_surplus_operand : RawInstr.wf ⟨.nop, [0]⟩ = false := by decide
theorem test_wf_refuses_register_five : RawInstr.wf ⟨.push, [5]⟩ = false := by decide
theorem test_wf_refuses_immediate_256 : RawInstr.wf ⟨.addImm, [256]⟩ = false := by decide
theorem test_wf_refuses_offset_256 : RawInstr.wf ⟨.cmpIdx, [256]⟩ = false := by decide
theorem test_wf_refuses_address_65536 : RawInstr.wf ⟨.stInd, [0, 65536]⟩ = false := by decide
theorem test_wf_refuses_target_65536 : RawInstr.wf ⟨.jmp, [65536]⟩ = false := by decide
theorem test_wf_refuses_a_long_image : imageWf (List.replicate 65537 0x00#8) = false := by
  simp only [imageWf, List.length_replicate]; decide
theorem test_wf_accepts_a_full_image : imageWf (List.replicate 65536 0x00#8) = true := by
  simp only [imageWf, List.length_replicate]; decide
theorem test_wf_refuses_a_repeated_opcode : CodeMap.wf ⟨fun _ => 0x00#8, regIdByte⟩ = false := by decide
theorem test_wf_refuses_a_repeated_register_id : CodeMap.wf ⟨opcodeByte, fun _ => 0x00#8⟩ = false := by decide
theorem test_memory_wf_refuses_a_zero_entry : Memory.wf [(0x10, 0x00#8)] = false := by decide
theorem test_memory_wf_refuses_falling_addresses : Memory.wf [(0x11, 0x01#8), (0x10, 0x01#8)] = false := by decide
theorem test_memory_wf_refuses_address_65536 : Memory.wf [(65536, 0x01#8)] = false := by decide

/-! ## Decoding: every constructor's word, written out from R59 to R61, and followed by one byte that is left over -/

theorem test_decode_data_movement :
    read [0x10#8, 0x00#8, 0x01#8, 0x99#8] = some (.ldReg .A .B, [0x99#8]) ∧
    read [0x11#8, 0x03#8, 0xFF#8, 0x99#8] = some (.ldImm .X 0xFF#8, [0x99#8]) ∧
    read [0x12#8, 0x02#8, 0x12#8, 0x34#8, 0x99#8] = some (.ldInd .C 0x1234#16, [0x99#8]) ∧
    read [0x13#8, 0x04#8, 0x80#8, 0x99#8] = some (.ldIdx .Y 0x80#8, [0x99#8]) ∧
    read [0x14#8, 0x00#8, 0x02#8, 0x99#8] = some (.stReg .A .C, [0x99#8]) ∧
    read [0x16#8, 0x00#8, 0x0F#8, 0xF1#8, 0x99#8] = some (.stInd .A 0x0FF1#16, [0x99#8]) ∧
    read [0x17#8, 0x01#8, 0x05#8, 0x99#8] = some (.stIdx .B 0x05#8, [0x99#8]) := by
  decide

theorem test_decode_add :
    read [0x20#8, 0x01#8, 0x99#8] = some (.addReg .B, [0x99#8]) ∧
    read [0x21#8, 0x80#8, 0x99#8] = some (.addImm 0x80#8, [0x99#8]) ∧
    read [0x22#8, 0x40#8, 0x00#8, 0x99#8] = some (.addInd 0x4000#16, [0x99#8]) ∧
    read [0x23#8, 0x03#8, 0x99#8] = some (.addIdx 0x03#8, [0x99#8]) := by
  decide

theorem test_decode_sub :
    read [0x24#8, 0x04#8, 0x99#8] = some (.subReg .Y, [0x99#8]) ∧
    read [0x25#8, 0x10#8, 0x99#8] = some (.subImm 0x10#8, [0x99#8]) ∧
    read [0x26#8, 0x01#8, 0x00#8, 0x99#8] = some (.subInd 0x0100#16, [0x99#8]) ∧
    read [0x27#8, 0xFF#8, 0x99#8] = some (.subIdx 0xFF#8, [0x99#8]) := by
  decide

theorem test_decode_cmp :
    read [0x28#8, 0x03#8, 0x99#8] = some (.cmpReg .X, [0x99#8]) ∧
    read [0x29#8, 0x80#8, 0x99#8] = some (.cmpImm 0x80#8, [0x99#8]) ∧
    read [0x2A#8, 0x20#8, 0x00#8, 0x99#8] = some (.cmpInd 0x2000#16, [0x99#8]) ∧
    read [0x2B#8, 0x01#8, 0x99#8] = some (.cmpIdx 0x01#8, [0x99#8]) := by
  decide

theorem test_decode_inc_dec :
    read [0x2C#8, 0x99#8] = some (.inc, [0x99#8]) ∧
    read [0x2D#8, 0x99#8] = some (.dec, [0x99#8]) := by
  decide

theorem test_decode_jumps :
    read [0x30#8, 0x00#8, 0x20#8, 0x99#8] = some (.jmp 0x0020#16, [0x99#8]) ∧
    read [0x38#8, 0x00#8, 0x40#8, 0x99#8] = some (.jc 0x0040#16, [0x99#8]) ∧
    read [0x39#8, 0x01#8, 0x00#8, 0x99#8] = some (.jnc 0x0100#16, [0x99#8]) ∧
    read [0x3A#8, 0x00#8, 0x50#8, 0x99#8] = some (.jp 0x0050#16, [0x99#8]) ∧
    read [0x3B#8, 0x12#8, 0x34#8, 0x99#8] = some (.jnp 0x1234#16, [0x99#8]) ∧
    read [0x3C#8, 0xFF#8, 0xFE#8, 0x99#8] = some (.jz 0xFFFE#16, [0x99#8]) ∧
    read [0x3D#8, 0x00#8, 0x08#8, 0x99#8] = some (.jnz 0x0008#16, [0x99#8]) ∧
    read [0x3E#8, 0x00#8, 0x60#8, 0x99#8] = some (.js 0x0060#16, [0x99#8]) ∧
    read [0x3F#8, 0x00#8, 0x70#8, 0x99#8] = some (.jns 0x0070#16, [0x99#8]) := by
  decide

theorem test_decode_call_ret :
    read [0x40#8, 0x01#8, 0x00#8, 0x99#8] = some (.call 0x0100#16, [0x99#8]) ∧
    read [0x41#8, 0x99#8] = some (.ret, [0x99#8]) := by
  decide

theorem test_decode_stack :
    read [0x42#8, 0x00#8, 0x99#8] = some (.push .A, [0x99#8]) ∧
    read [0x43#8, 0x01#8, 0x99#8] = some (.pop .B, [0x99#8]) := by
  decide

theorem test_decode_nop :
    read [0x00#8, 0x99#8] = some (.nop, [0x99#8]) := by
  decide


theorem test_decode_rejects_unassigned :
    readError [0x15#8, 0x00#8] = some (.invalidOpcode 0x15#8) ∧ readError [0xFF#8] = some (.invalidOpcode 0xFF#8) := by decide
theorem test_decode_rejects_bad_register : readError [0x10#8, 0x09#8, 0x07#8] = some (.invalidRegister 0x09#8) := by decide
theorem test_decode_rejects_truncated : readError [0x42#8] = some (.truncated 0x42#8) ∧ readError [] = some .noBytes := by decide
theorem test_encode_words : encode (.ldInd .C 0x1234#16) = [0x12#8, 0x02#8, 0x12#8, 0x34#8] ∧ encode .ret = [0x41#8] := by decide

/-- The first word's byte is the table word's lowest: STind A, 0x0FF1 is bytes 16 00 0F F1. -/
theorem test_table_word : decodeTableWord 32 0xF10F0016 = some (.stInd .A 0x0FF1#16) ∧ decodeTableWord 8 0x15 = none := by decide
theorem test_table_word_short : decodeTableWord 8 0x30 = some (.jmp 0x0000#16) := by decide
theorem test_fetch_word_runs : (nextOf (step (State.reset.withFetchWord 24 0x050111))).map (·.b) = some 0x05#8 := by decide

/-! ## One step of each instruction (95_test_vectors, section 2) -/

theorem test_v1_ld_a_b :
    (run1 0x12#8 0x34#8 0x5C#8 0x6D#8 0x7E#8 (fl true false true false) [] [0x10#8, 0x00#8, 0x01#8]).map (fun t => (regs t, t.flags, t.pc)) =
      some ([0x34#8, 0x34#8, 0x5C#8, 0x6D#8, 0x7E#8], (fl true false true false), 0x0003#16) := by decide

theorem test_v2_ld_x_ffh :
    (run1 0x3A#8 0x4B#8 0x5C#8 0x00#8 0x7E#8 (fl true true true true) [] [0x11#8, 0x03#8, 0xFF#8]).map (fun t => (regs t, t.flags, t.pc)) =
      some ([0x3A#8, 0x4B#8, 0x5C#8, 0xFF#8, 0x7E#8], (fl true true true true), 0x0003#16) := by decide

theorem test_v3_ld_c_ff_h :
    (run1 0x3A#8 0x4B#8 0x00#8 0x6D#8 0x7E#8 (fl false false false false) [(0x0FF0, 0x12#8), (0x0FF1, 0x34#8)] [0x12#8, 0x02#8, 0x0F#8, 0xF0#8]).map (fun t => (regs t, t.flags, t.pc, t.mem)) =
      some ([0x3A#8, 0x4B#8, 0x12#8, 0x6D#8, 0x7E#8], (fl false false false false), 0x0004#16, [(0x0FF0, 0x12#8), (0x0FF1, 0x34#8)]) := by decide

theorem test_v4_ld_b_ffffh :
    (run1 0x3A#8 0x00#8 0x5C#8 0x6D#8 0x7E#8 (fl false false false false) [(0xFFFF, 0x5A#8)] [0x12#8, 0x01#8, 0xFF#8, 0xFF#8]).map (fun t => (regs t, t.flags, t.pc, t.mem)) =
      some ([0x3A#8, 0x5A#8, 0x5C#8, 0x6D#8, 0x7E#8], (fl false false false false), 0x0004#16, [(0xFFFF, 0x5A#8)]) := by decide

theorem test_v5_ld_a_xy :
    (run1 0x00#8 0x4B#8 0x5C#8 0x12#8 0x34#8 (fl false false false false) [(0x1234, 0xAB#8)] [0x13#8, 0x00#8, 0x00#8]).map (fun t => (regs t, t.flags, t.pc, t.mem)) =
      some ([0xAB#8, 0x4B#8, 0x5C#8, 0x12#8, 0x34#8], (fl false false false false), 0x0003#16, [(0x1234, 0xAB#8)]) := by decide

theorem test_v6_ld_a_xy :
    (run1 0x00#8 0x4B#8 0x5C#8 0xFF#8 0x10#8 (fl false false false false) [(0x000F, 0x77#8)] [0x13#8, 0x00#8, 0xFF#8]).map (fun t => (regs t, t.flags, t.pc, t.mem)) =
      some ([0x77#8, 0x4B#8, 0x5C#8, 0xFF#8, 0x10#8], (fl false false false false), 0x0003#16, [(0x000F, 0x77#8)]) := by decide

theorem test_v8_ld_a_a :
    (run1 0x5C#8 0x4B#8 0x5C#8 0x6D#8 0x7E#8 (fl false true false true) [] [0x10#8, 0x00#8, 0x00#8]).map (fun t => (regs t, t.flags, t.pc)) =
      some ([0x5C#8, 0x4B#8, 0x5C#8, 0x6D#8, 0x7E#8], (fl false true false true), 0x0003#16) := by decide

theorem test_v9_st_a_c :
    (run1 0x0A#8 0x4B#8 0xFF#8 0x6D#8 0x7E#8 (fl false false true false) [] [0x14#8, 0x00#8, 0x02#8]).map (fun t => (regs t, t.flags, t.pc)) =
      some ([0x0A#8, 0x4B#8, 0x0A#8, 0x6D#8, 0x7E#8], (fl false false true false), 0x0003#16) := by decide

theorem test_v10_st_a_ff_h :
    (run1 0x80#8 0x4B#8 0x5C#8 0x6D#8 0x7E#8 (fl false false false false) [(0x0FF0, 0x20#8)] [0x16#8, 0x00#8, 0x0F#8, 0xF1#8]).map (fun t => (regs t, t.flags, t.pc, t.mem)) =
      some ([0x80#8, 0x4B#8, 0x5C#8, 0x6D#8, 0x7E#8], (fl false false false false), 0x0004#16, [(0x0FF0, 0x20#8), (0x0FF1, 0x80#8)]) := by decide

theorem test_v11_st_b_xy :
    (run1 0x3A#8 0x42#8 0x5C#8 0x30#8 0x00#8 (fl false false false false) [] [0x17#8, 0x01#8, 0x05#8]).map (fun t => (regs t, t.flags, t.pc, t.mem)) =
      some ([0x3A#8, 0x42#8, 0x5C#8, 0x30#8, 0x00#8], (fl false false false false), 0x0003#16, [(0x3005, 0x42#8)]) := by decide

theorem test_v13_st_a_xy :
    (run1 0x44#8 0x4B#8 0x5C#8 0x0F#8 0xEF#8 (fl false false false false) [(0x0FF0, 0x10#8)] [0x17#8, 0x00#8, 0x02#8]).map (fun t => (regs t, t.flags, t.pc, t.mem)) =
      some ([0x44#8, 0x4B#8, 0x5C#8, 0x0F#8, 0xEF#8], (fl false false false false), 0x0003#16, [(0x0FF0, 0x10#8), (0x0FF1, 0x44#8)]) := by decide

theorem test_v15_add_b :
    (run1 0x03#8 0x04#8 0x5C#8 0x6D#8 0x7E#8 (fl false false false false) [] [0x20#8, 0x01#8]).map (fun t => (regs t, t.flags, t.pc)) =
      some ([0x07#8, 0x04#8, 0x5C#8, 0x6D#8, 0x7E#8], (fl false true false false), 0x0002#16) := by decide

theorem test_v16_add :
    (run1 0xFF#8 0x4B#8 0x5C#8 0x6D#8 0x7E#8 (fl false false false false) [] [0x21#8, 0x01#8]).map (fun t => (regs t, t.flags, t.pc)) =
      some ([0x00#8, 0x4B#8, 0x5C#8, 0x6D#8, 0x7E#8], (fl true false true false), 0x0002#16) := by decide

theorem test_v18_add :
    (run1 0x7F#8 0x4B#8 0x5C#8 0x6D#8 0x7E#8 (fl false false false false) [] [0x21#8, 0x01#8]).map (fun t => (regs t, t.flags, t.pc)) =
      some ([0x80#8, 0x4B#8, 0x5C#8, 0x6D#8, 0x7E#8], (fl false false false true), 0x0002#16) := by decide

theorem test_v19_add_h :
    (run1 0x10#8 0x4B#8 0x5C#8 0x6D#8 0x7E#8 (fl false false false false) [(0x1000, 0xF5#8)] [0x22#8, 0x10#8, 0x00#8]).map (fun t => (regs t, t.flags, t.pc, t.mem)) =
      some ([0x05#8, 0x4B#8, 0x5C#8, 0x6D#8, 0x7E#8], (fl true true false false), 0x0003#16, [(0x1000, 0xF5#8)]) := by decide

theorem test_v20_add_xy :
    (run1 0x01#8 0x4B#8 0x5C#8 0x00#8 0xFD#8 (fl false false false false) [(0x0100, 0x02#8)] [0x23#8, 0x03#8]).map (fun t => (regs t, t.flags, t.pc, t.mem)) =
      some ([0x03#8, 0x4B#8, 0x5C#8, 0x00#8, 0xFD#8], (fl false true false false), 0x0002#16, [(0x0100, 0x02#8)]) := by decide

theorem test_v23_add_xy :
    (run1 0x05#8 0x4B#8 0x5C#8 0xFF#8 0xFF#8 (fl false false false false) [(0x0000, 0x10#8)] [0x23#8, 0x01#8]).map (fun t => (regs t, t.flags, t.pc, t.mem)) =
      some ([0x15#8, 0x4B#8, 0x5C#8, 0xFF#8, 0xFF#8], (fl false true false false), 0x0002#16, [(0x0000, 0x10#8)]) := by decide

theorem test_v24_sub_b :
    (run1 0x05#8 0x03#8 0x5C#8 0x6D#8 0x7E#8 (fl true true true true) [] [0x24#8, 0x01#8]).map (fun t => (regs t, t.flags, t.pc)) =
      some ([0x02#8, 0x03#8, 0x5C#8, 0x6D#8, 0x7E#8], (fl false false false false), 0x0002#16) := by decide

theorem test_v25_sub :
    (run1 0x00#8 0x4B#8 0x5C#8 0x6D#8 0x7E#8 (fl false false false false) [] [0x25#8, 0x01#8]).map (fun t => (regs t, t.flags, t.pc)) =
      some ([0xFF#8, 0x4B#8, 0x5C#8, 0x6D#8, 0x7E#8], (fl true true false true), 0x0002#16) := by decide

theorem test_v26_sub :
    (run1 0x05#8 0x4B#8 0x5C#8 0x6D#8 0x7E#8 (fl false false false false) [] [0x25#8, 0x05#8]).map (fun t => (regs t, t.flags, t.pc)) =
      some ([0x00#8, 0x4B#8, 0x5C#8, 0x6D#8, 0x7E#8], (fl false false true false), 0x0002#16) := by decide

theorem test_v27_sub_h :
    (run1 0x03#8 0x4B#8 0x5C#8 0x6D#8 0x7E#8 (fl false false false false) [(0x2000, 0x05#8)] [0x26#8, 0x20#8, 0x00#8]).map (fun t => (regs t, t.flags, t.pc, t.mem)) =
      some ([0xFE#8, 0x4B#8, 0x5C#8, 0x6D#8, 0x7E#8], (fl true false false true), 0x0003#16, [(0x2000, 0x05#8)]) := by decide

theorem test_v28_sub_xy :
    (run1 0x80#8 0x4B#8 0x5C#8 0x50#8 0x00#8 (fl false false false false) [(0x5000, 0x01#8)] [0x27#8, 0x00#8]).map (fun t => (regs t, t.flags, t.pc, t.mem)) =
      some ([0x7F#8, 0x4B#8, 0x5C#8, 0x50#8, 0x00#8], (fl false true false false), 0x0002#16, [(0x5000, 0x01#8)]) := by decide

theorem test_v29_sub_a :
    (run1 0x42#8 0x4B#8 0x5C#8 0x6D#8 0x7E#8 (fl false false false false) [] [0x24#8, 0x00#8]).map (fun t => (regs t, t.flags, t.pc)) =
      some ([0x00#8, 0x4B#8, 0x5C#8, 0x6D#8, 0x7E#8], (fl false false true false), 0x0002#16) := by decide

theorem test_v31_inc :
    (run1 0x04#8 0x4B#8 0x5C#8 0x6D#8 0x7E#8 (fl false false false false) [] [0x2C#8]).map (fun t => (regs t, t.flags, t.pc)) =
      some ([0x05#8, 0x4B#8, 0x5C#8, 0x6D#8, 0x7E#8], (fl false true false false), 0x0001#16) := by decide

theorem test_v32_inc :
    (run1 0xFF#8 0x4B#8 0x5C#8 0x6D#8 0x7E#8 (fl false false false false) [] [0x2C#8]).map (fun t => (regs t, t.flags, t.pc)) =
      some ([0x00#8, 0x4B#8, 0x5C#8, 0x6D#8, 0x7E#8], (fl true false true false), 0x0001#16) := by decide

theorem test_v34_dec :
    (run1 0x01#8 0x4B#8 0x5C#8 0x6D#8 0x7E#8 (fl false false false false) [] [0x2D#8]).map (fun t => (regs t, t.flags, t.pc)) =
      some ([0x00#8, 0x4B#8, 0x5C#8, 0x6D#8, 0x7E#8], (fl false false true false), 0x0001#16) := by decide

theorem test_v35_dec :
    (run1 0x00#8 0x4B#8 0x5C#8 0x6D#8 0x7E#8 (fl false false false false) [] [0x2D#8]).map (fun t => (regs t, t.flags, t.pc)) =
      some ([0xFF#8, 0x4B#8, 0x5C#8, 0x6D#8, 0x7E#8], (fl true true false true), 0x0001#16) := by decide

theorem test_v37_cmp_b :
    (run1 0x05#8 0x05#8 0x5C#8 0x6D#8 0x7E#8 (fl false false false false) [] [0x28#8, 0x01#8]).map (fun t => (regs t, t.flags, t.pc)) =
      some ([0x05#8, 0x05#8, 0x5C#8, 0x6D#8, 0x7E#8], (fl false true true true), 0x0002#16) := by decide

theorem test_v38_cmp :
    (run1 0x05#8 0x4B#8 0x5C#8 0x6D#8 0x7E#8 (fl false false false false) [] [0x29#8, 0x06#8]).map (fun t => (regs t, t.flags, t.pc)) =
      some ([0x05#8, 0x4B#8, 0x5C#8, 0x6D#8, 0x7E#8], (fl true false false true), 0x0002#16) := by decide

theorem test_v39_cmp :
    (run1 0x05#8 0x4B#8 0x5C#8 0x6D#8 0x7E#8 (fl false false false false) [] [0x29#8, 0x04#8]).map (fun t => (regs t, t.flags, t.pc)) =
      some ([0x05#8, 0x4B#8, 0x5C#8, 0x6D#8, 0x7E#8], (fl false false false true), 0x0002#16) := by decide

theorem test_v42_cmp_h :
    (run1 0xFF#8 0x4B#8 0x5C#8 0x6D#8 0x7E#8 (fl false false false false) [(0x3000, 0x01#8)] [0x2A#8, 0x30#8, 0x00#8]).map (fun t => (regs t, t.flags, t.pc, t.mem)) =
      some ([0xFF#8, 0x4B#8, 0x5C#8, 0x6D#8, 0x7E#8], (fl false true false false), 0x0003#16, [(0x3000, 0x01#8)]) := by decide

theorem test_v43_cmp_xy :
    (run1 0x10#8 0x4B#8 0x5C#8 0x60#8 0x00#8 (fl false false false false) [(0x6001, 0x90#8)] [0x2B#8, 0x01#8]).map (fun t => (regs t, t.flags, t.pc, t.mem)) =
      some ([0x10#8, 0x4B#8, 0x5C#8, 0x60#8, 0x00#8], (fl true true false false), 0x0002#16, [(0x6001, 0x90#8)]) := by decide

theorem test_v47_jmp_l :
    (run1 0x3A#8 0x4B#8 0x5C#8 0x6D#8 0x7E#8 (fl true true true true) [] [0x30#8, 0x01#8, 0x00#8]).map (fun t => (regs t, t.flags, t.pc)) =
      some ([0x3A#8, 0x4B#8, 0x5C#8, 0x6D#8, 0x7E#8], (fl true true true true), 0x0100#16) := by decide

theorem test_v48a_jc_l :
    (run1 0x3A#8 0x4B#8 0x5C#8 0x6D#8 0x7E#8 (fl true false false false) [] [0x38#8, 0x12#8, 0x34#8]).map (fun t => (regs t, t.flags, t.pc)) =
      some ([0x3A#8, 0x4B#8, 0x5C#8, 0x6D#8, 0x7E#8], (fl true false false false), 0x1234#16) := by decide

theorem test_v48b_jc_l :
    (run1 0x3A#8 0x4B#8 0x5C#8 0x6D#8 0x7E#8 (fl false true true true) [] [0x38#8, 0x12#8, 0x34#8]).map (fun t => (regs t, t.flags, t.pc)) =
      some ([0x3A#8, 0x4B#8, 0x5C#8, 0x6D#8, 0x7E#8], (fl false true true true), 0x0003#16) := by decide

theorem test_v49a_jnc_l :
    (run1 0x3A#8 0x4B#8 0x5C#8 0x6D#8 0x7E#8 (fl true false false false) [] [0x39#8, 0x12#8, 0x34#8]).map (fun t => (regs t, t.flags, t.pc)) =
      some ([0x3A#8, 0x4B#8, 0x5C#8, 0x6D#8, 0x7E#8], (fl true false false false), 0x0003#16) := by decide

theorem test_v49b_jnc_l :
    (run1 0x3A#8 0x4B#8 0x5C#8 0x6D#8 0x7E#8 (fl false true true true) [] [0x39#8, 0x12#8, 0x34#8]).map (fun t => (regs t, t.flags, t.pc)) =
      some ([0x3A#8, 0x4B#8, 0x5C#8, 0x6D#8, 0x7E#8], (fl false true true true), 0x1234#16) := by decide

theorem test_v50a_jp_l :
    (run1 0x3A#8 0x4B#8 0x5C#8 0x6D#8 0x7E#8 (fl false true false false) [] [0x3A#8, 0x12#8, 0x34#8]).map (fun t => (regs t, t.flags, t.pc)) =
      some ([0x3A#8, 0x4B#8, 0x5C#8, 0x6D#8, 0x7E#8], (fl false true false false), 0x1234#16) := by decide

theorem test_v50b_jp_l :
    (run1 0x3A#8 0x4B#8 0x5C#8 0x6D#8 0x7E#8 (fl true false true true) [] [0x3A#8, 0x12#8, 0x34#8]).map (fun t => (regs t, t.flags, t.pc)) =
      some ([0x3A#8, 0x4B#8, 0x5C#8, 0x6D#8, 0x7E#8], (fl true false true true), 0x0003#16) := by decide

theorem test_v51a_jnp_l :
    (run1 0x3A#8 0x4B#8 0x5C#8 0x6D#8 0x7E#8 (fl false true false false) [] [0x3B#8, 0x12#8, 0x34#8]).map (fun t => (regs t, t.flags, t.pc)) =
      some ([0x3A#8, 0x4B#8, 0x5C#8, 0x6D#8, 0x7E#8], (fl false true false false), 0x0003#16) := by decide

theorem test_v51b_jnp_l :
    (run1 0x3A#8 0x4B#8 0x5C#8 0x6D#8 0x7E#8 (fl true false true true) [] [0x3B#8, 0x12#8, 0x34#8]).map (fun t => (regs t, t.flags, t.pc)) =
      some ([0x3A#8, 0x4B#8, 0x5C#8, 0x6D#8, 0x7E#8], (fl true false true true), 0x1234#16) := by decide

theorem test_v52a_jz_l :
    (run1 0x3A#8 0x4B#8 0x5C#8 0x6D#8 0x7E#8 (fl false false true false) [] [0x3C#8, 0x12#8, 0x34#8]).map (fun t => (regs t, t.flags, t.pc)) =
      some ([0x3A#8, 0x4B#8, 0x5C#8, 0x6D#8, 0x7E#8], (fl false false true false), 0x1234#16) := by decide

theorem test_v52b_jz_l :
    (run1 0x3A#8 0x4B#8 0x5C#8 0x6D#8 0x7E#8 (fl true true false true) [] [0x3C#8, 0x12#8, 0x34#8]).map (fun t => (regs t, t.flags, t.pc)) =
      some ([0x3A#8, 0x4B#8, 0x5C#8, 0x6D#8, 0x7E#8], (fl true true false true), 0x0003#16) := by decide

theorem test_v53a_jnz_l :
    (run1 0x3A#8 0x4B#8 0x5C#8 0x6D#8 0x7E#8 (fl false false true false) [] [0x3D#8, 0x12#8, 0x34#8]).map (fun t => (regs t, t.flags, t.pc)) =
      some ([0x3A#8, 0x4B#8, 0x5C#8, 0x6D#8, 0x7E#8], (fl false false true false), 0x0003#16) := by decide

theorem test_v53b_jnz_l :
    (run1 0x3A#8 0x4B#8 0x5C#8 0x6D#8 0x7E#8 (fl true true false true) [] [0x3D#8, 0x12#8, 0x34#8]).map (fun t => (regs t, t.flags, t.pc)) =
      some ([0x3A#8, 0x4B#8, 0x5C#8, 0x6D#8, 0x7E#8], (fl true true false true), 0x1234#16) := by decide

theorem test_v54a_js_l :
    (run1 0x3A#8 0x4B#8 0x5C#8 0x6D#8 0x7E#8 (fl false false false true) [] [0x3E#8, 0x12#8, 0x34#8]).map (fun t => (regs t, t.flags, t.pc)) =
      some ([0x3A#8, 0x4B#8, 0x5C#8, 0x6D#8, 0x7E#8], (fl false false false true), 0x1234#16) := by decide

theorem test_v54b_js_l :
    (run1 0x3A#8 0x4B#8 0x5C#8 0x6D#8 0x7E#8 (fl true true true false) [] [0x3E#8, 0x12#8, 0x34#8]).map (fun t => (regs t, t.flags, t.pc)) =
      some ([0x3A#8, 0x4B#8, 0x5C#8, 0x6D#8, 0x7E#8], (fl true true true false), 0x0003#16) := by decide

theorem test_v55a_jns_l :
    (run1 0x3A#8 0x4B#8 0x5C#8 0x6D#8 0x7E#8 (fl false false false true) [] [0x3F#8, 0x12#8, 0x34#8]).map (fun t => (regs t, t.flags, t.pc)) =
      some ([0x3A#8, 0x4B#8, 0x5C#8, 0x6D#8, 0x7E#8], (fl false false false true), 0x0003#16) := by decide

theorem test_v55b_jns_l :
    (run1 0x3A#8 0x4B#8 0x5C#8 0x6D#8 0x7E#8 (fl true true true false) [] [0x3F#8, 0x12#8, 0x34#8]).map (fun t => (regs t, t.flags, t.pc)) =
      some ([0x3A#8, 0x4B#8, 0x5C#8, 0x6D#8, 0x7E#8], (fl true true true false), 0x1234#16) := by decide

theorem test_v57_call_l :
    (run1 0x3A#8 0x4B#8 0x5C#8 0x6D#8 0x7E#8 (fl false false false false) [(0x0FF1, 0x01#8)] [0x40#8, 0x01#8, 0x00#8]).map (fun t => (regs t, t.flags, t.pc, t.mem)) =
      some ([0x3A#8, 0x4B#8, 0x5C#8, 0x6D#8, 0x7E#8], (fl false false false false), 0x0100#16, [(0x0000, 0x03#8), (0x0FF0, 0xFF#8), (0x0FF1, 0xFF#8)]) := by decide

theorem test_v58_call_l :
    (run1 0x3A#8 0x4B#8 0x5C#8 0x6D#8 0x7E#8 (fl false false false false) [(0x0FF0, 0x0F#8), (0x0FF1, 0xF2#8)] [0x40#8, 0x01#8, 0x00#8]).map (fun t => (regs t, t.flags, t.pc, t.mem)) =
      some ([0x3A#8, 0x4B#8, 0x5C#8, 0x6D#8, 0x7E#8], (fl false false false false), 0x0100#16, [(0x0FF1, 0x03#8)]) := by decide

theorem test_v61_ret :
    (run1 0x3A#8 0x4B#8 0x5C#8 0x6D#8 0x7E#8 (fl false false false false) [(0x0FF0, 0xFF#8), (0x0FF1, 0xFE#8), (0xFFFF, 0x08#8)] [0x41#8]).map (fun t => (regs t, t.flags, t.pc, t.mem)) =
      some ([0x3A#8, 0x4B#8, 0x5C#8, 0x6D#8, 0x7E#8], (fl false false false false), 0x0008#16, [(0xFFFF, 0x08#8)]) := by decide

theorem test_v62_ret :
    (run1 0x3A#8 0x4B#8 0x5C#8 0x6D#8 0x7E#8 (fl false false false false) [(0x0000, 0x34#8), (0x0FF0, 0xFF#8), (0x0FF1, 0xFF#8), (0xFFFF, 0x12#8)] [0x41#8]).map (fun t => (regs t, t.flags, t.pc, t.mem)) =
      some ([0x3A#8, 0x4B#8, 0x5C#8, 0x6D#8, 0x7E#8], (fl false false false false), 0x1234#16, [(0x0000, 0x34#8), (0x0FF1, 0x01#8), (0xFFFF, 0x12#8)]) := by decide

theorem test_v64_push_a :
    (run1 0x11#8 0x4B#8 0x5C#8 0x6D#8 0x7E#8 (fl false false false false) [(0x0FF0, 0x20#8)] [0x42#8, 0x00#8]).map (fun t => (regs t, t.flags, t.pc, t.mem)) =
      some ([0x11#8, 0x4B#8, 0x5C#8, 0x6D#8, 0x7E#8], (fl false false false false), 0x0002#16, [(0x0FF0, 0x1F#8), (0x0FF1, 0xFF#8), (0x1FFF, 0x11#8)]) := by decide

theorem test_v65_push_b :
    (run1 0x3A#8 0xAA#8 0x5C#8 0x6D#8 0x7E#8 (fl false false false false) [] [0x42#8, 0x01#8]).map (fun t => (regs t, t.flags, t.pc, t.mem)) =
      some ([0x3A#8, 0xAA#8, 0x5C#8, 0x6D#8, 0x7E#8], (fl false false false false), 0x0002#16, [(0x0FF0, 0xFF#8), (0x0FF1, 0xFF#8), (0xFFFF, 0xAA#8)]) := by decide

theorem test_v69_pop_c :
    (run1 0x3A#8 0x4B#8 0x00#8 0x6D#8 0x7E#8 (fl false false false false) [(0x0FF0, 0xFF#8), (0x0FF1, 0xFF#8), (0xFFFF, 0x3C#8)] [0x43#8, 0x02#8]).map (fun t => (regs t, t.flags, t.pc, t.mem)) =
      some ([0x3A#8, 0x4B#8, 0x3C#8, 0x6D#8, 0x7E#8], (fl false false false false), 0x0002#16, [(0xFFFF, 0x3C#8)]) := by decide

theorem test_v71_pop_x :
    (run1 0x3A#8 0x4B#8 0x5C#8 0x12#8 0x34#8 (fl true false false true) [(0x0FF0, 0x80#8), (0x8000, 0x56#8)] [0x43#8, 0x03#8]).map (fun t => (regs t, t.flags, t.pc, t.mem)) =
      some ([0x3A#8, 0x4B#8, 0x5C#8, 0x56#8, 0x34#8], (fl true false false true), 0x0002#16, [(0x0FF0, 0x80#8), (0x0FF1, 0x01#8), (0x8000, 0x56#8)]) := by decide

/-- V72: NOP at 0x0007. -/
theorem test_v72_nop :
    nextOf (step (at_ 0x0007#16 (List.replicate 8 0x00#8))) = some (at_ 0x0008#16 (List.replicate 8 0x00#8)) := by decide

/-- V56: CALL at 0x0005 saves 0x0008, high byte at the lower address. -/
theorem test_v56_call :
    (nextOf (exec (.call 0x0100#16) { State.reset with pc := 0x0008#16, mem := [(0xFFFE, 0xCC#8), (0xFFFF, 0xCC#8)] })).map
      (fun t => (t.pc, t.mem)) =
      some (0x0100#16, [(0x0FF0, 0xFF#8), (0x0FF1, 0xFE#8), (0xFFFF, 0x08#8)]) := by decide

/-! ## Faults and outcomes (95_test_vectors, section 3) -/

theorem test_v73_unassigned : fault1 0x0000#16 [0x15#8, 0x00#8, 0x05#8] = some (.invalidOpcode 0x0000#16 0x15#8) := by decide
theorem test_v76_second_register : fault1 0x0000#16 [0x10#8, 0x00#8, 0x07#8] = some (.invalidRegister 0x0000#16 0x07#8) := by decide
theorem test_v77_first_register : fault1 0x0000#16 [0x10#8, 0x09#8, 0x07#8] = some (.invalidRegister 0x0000#16 0x09#8) := by decide
theorem test_v78_truncated : fault1 0x0000#16 [0x30#8, 0x12#8] = some (.truncatedInstruction 0x0000#16 0x30#8) := by decide
theorem test_v79_truncated_first : fault1 0x0000#16 [0x42#8] = some (.truncatedInstruction 0x0000#16 0x42#8) := by decide
theorem test_v80_opcode_first : fault1 0x0001#16 [0x00#8, 0x2E#8] = some (.invalidOpcode 0x0001#16 0x2E#8) := by decide
theorem test_v81_end_of_image : fault1 0x0001#16 [0x00#8] = some .endOfImage := by decide
theorem test_v82_outside : fault1 0x0010#16 [0x30#8, 0x00#8, 0x10#8] = some (.fetchOutsideImage 0x0010#16) := by decide
theorem test_v85_register_ids :
    fault1 0x0003#16 [0x11#8, 0x04#8, 0x01#8, 0x11#8, 0x05#8, 0x01#8] = some (.invalidRegister 0x0003#16 0x05#8) := by decide

/-! ## The host port (V88 to V95) -/

/-- The count and the outcome a run returns, and the pc it leaves. -/
def runOf (n : Nat) (image : List Byte) : Option (Nat × Option Fault × Addr) :=
  match portRun n (at_ 0x0000#16 image) with
  | .ok r => some (r.count, r.stop, r.state.pc)
  | .error _ => none

theorem test_v89_run : runOf 5 [0x00#8, 0x00#8, 0x00#8] = some (3, some .endOfImage, 0x0003#16) := by decide
theorem test_v90_run : runOf 5 [0x00#8, 0x15#8] = some (1, some (.invalidOpcode 0x0001#16 0x15#8), 0x0001#16) := by decide
theorem test_v91_run : runOf 0 [0x00#8, 0x00#8, 0x00#8] = some (0, none, 0x0000#16) := by decide
theorem test_v92_run : runOf 4 [0x30#8, 0x00#8, 0x00#8] = some (4, none, 0x0000#16) := by decide

/-- V93: a load clears ready, and a step is then refused. -/
theorem test_v93_not_ready : portLoad [0x00#8] State.reset = .next { State.reset with image := [0x00#8], ready := false } := by
  rfl

/-- V95: two writes of the host move SP. -/
theorem test_v95_write_mem :
    spRead (portWriteMem 0x0FF1#16 0x00#8 (portWriteMem 0x0FF0#16 0x20#8 State.reset)) = 0x2000#16 := by decide

theorem test_flags_byte : flagsByte (fl true false true false) = 0x05#8 ∧ flagsByte (fl false true false true) = 0x0A#8 := by
  decide

/-- State.reset is what reset leaves of a machine at power-on with no interception, with the draws log 1 names. -/
theorem test_reset_is_a_reset (s : State) (h : PowerOn s) (hi : s.ioIntercept = .none) (hd : s.ioDraws = 0)
    (he : s.ioEvents = []) : portReset ⟨0x00#8, 0x00#8, 0x00#8, 0x00#8, 0x00#8⟩ s = State.reset := by
  simp only [portReset, State.reset, h.noImage, hi, hd, he]

/-! ## Interception (R47) -/

/-- A state whose host intercepts the I/O bytes. -/
def oracle : State := { State.reset with ioIntercept := .oracle }

theorem test_oracle_write_is_an_event :
    (nextOf (exec (.stInd .A 0x0FF2#16) { oracle with a := 0x41#8 })).map (fun t => (t.ioEvents, t.mem)) =
      some ([⟨0x0FF2#16, 0x41#8⟩], [(0x0FF2, 0x41#8)]) := by decide

/-- The value read is the free one, whatever it is; only the counter of draws moves with it. -/
theorem test_oracle_read_is_a_draw : memRead 0x0FFF#16 oracle = (Config.ioDraw 0, { oracle with ioDraws := 1 }) := by rfl

/-! ## The assembler (E5, E9, R72 to R84) -/

/-- E5. -/
theorem test_e5_forward_reference :
    imageText "      JMP fwd\nfwd:  NOP\n      JMP fwd" =
      some [0x30#8, 0x00#8, 0x03#8, 0x00#8, 0x00#8, 0x30#8, 0x00#8, 0x03#8] := by decide

/-- E9's property, with a label name that R73 allows (log 14). -/
theorem test_e9_duplicate_label : errorsOf "l1: NOP\nl1: NOP" = [⟨2, .duplicateLabel 1⟩] := by decide

theorem test_label_named_as_a_register : errorsOf "a: NOP" = [⟨1, .syntaxError⟩] := by decide

theorem test_operands : imageText "ld x, 0ffh ; c\nSt b XY+5\nADD #4000h\nCMP 101b\nsub xy" =
    some [0x11#8, 0x03#8, 0xFF#8, 0x17#8, 0x01#8, 0x05#8, 0x22#8, 0x40#8, 0x00#8, 0x29#8, 0x05#8, 0x27#8, 0x00#8] := by decide

/-- A line whose instruction is in error still binds its label: the second l1 is a duplicate, and the reference is defined. -/
theorem test_erring_line_keeps_its_label : errorsOf "l1: FOO\nl1: NOP\nJMP l1" =
    [⟨1, .unknownMnemonic⟩, ⟨2, .duplicateLabel 1⟩] := by decide

/-- One line with errors in its label, its mnemonic and two of its operands (log 18). -/
theorem test_every_error_of_a_line : errorsOf "a: FOO 12z, 5, 1b2" =
    [⟨1, .syntaxError⟩, ⟨1, .unknownMnemonic⟩, ⟨1, .syntaxError⟩, ⟨1, .syntaxError⟩] := by decide

/-- INC at 65535 fills the code space; a label before it makes the image too long, which is reported once. -/
theorem test_image_too_long :
    (passOne 65535 [] [⟨1, none, some ⟨.inc, []⟩⟩]).1 = [] ∧
    (passOne 65535 [] [⟨1, some ['l'], some ⟨.inc, []⟩⟩, ⟨2, none, some ⟨.inc, []⟩⟩]).1 = [⟨1, .imageTooLong⟩] := by decide

/-- A label at 65535 is a target; one at 65536 is past the code space, and no literal out of range. -/
theorem test_label_past_the_code_space :
    (passTwo [⟨['l'], 65535, 9⟩] [⟨1, none, some ⟨.jmp, [.label ['l']]⟩⟩]).1 = [] ∧
    (passTwo [⟨['l'], 65536, 9⟩] [⟨1, none, some ⟨.jmp, [.label ['l']]⟩⟩]).1 = [⟨1, .imageTooLong⟩] := by decide

theorem test_errors : errorsOf "ST A, 5\nADD 256\nADXY\nJMP nowhere\nADD FFh" =
    [⟨3, .unknownMnemonic⟩, ⟨1, .illegalMode⟩, ⟨2, .outOfRange⟩, ⟨4, .undefinedLabel⟩, ⟨5, .illegalMode⟩] := by decide

/-! ## Witnesses: for every obligation with hypotheses, concrete terms that meet all of them together -/

/-- O1: a code map that is not the spec's and is injective. -/
def shifted : CodeMap := ⟨fun o => opcodeByte o + 1#8, fun r => regIdByte r + 0x80#8⟩

theorem witness_DecodeEncodeRoundTrip : shifted.wf = true ∧ CodeMap.standard.wf = true := by decide

theorem witness_DecodedBytesAreTheEncoding :
    decodeWith CodeMap.standard [0x42#8, 0x04#8, 0x77#8] = .ok (.push .Y, [0x77#8]) := by rfl

theorem witness_UnassignedOpcodesAreRejected :
    0x15#8 ∉ assignedOpcodes ∧ 0x44#8 ∉ assignedOpcodes ∧ 0x43#8 ∈ assignedOpcodes := by decide

theorem witness_LengthIsFixedByTheOpcode : 0 < 1 ∧ 1 < Op.len .push ∧ 3 < Op.len .ldInd := by decide

theorem witness_RegisterIdBytes : 5 ≤ (0x05#8 : Byte).toNat ∧ 5 ≤ (0xFF#8 : Byte).toNat := by decide

theorem witness_RawInstructionsThatFit : instrOfRaw ⟨.ldInd, [4, 65535]⟩ = some (.ldInd .Y 0xFFFF#16) := by decide

/-- A ready state about to run PUSH A, with one more byte in the image. -/
def pushNext : State := at_ 0x0001#16 [0x00#8, 0x42#8, 0x00#8]

theorem witness_StepRunsTheDecodedInstruction :
    pushNext.ready = true ∧ fetchStop pushNext = none ∧ decode (fetchWindow pushNext) = .ok (.push .A, []) := by
  exact ⟨rfl, by decide, rfl⟩

theorem codeAt_pushNext : CodeAt pushNext (encodeWith CodeMap.standard (.push .A)) := by
  refine ⟨by decide, ?_⟩
  intro k hk
  change k < 2 at hk
  interval_cases k <;> rfl

/-- An image whose last byte begins a PUSH and whose first byte is its register id, with n bytes between. -/
def aroundTheEnd (n : Nat) : List Byte := 0x02#8 :: (List.replicate n 0x00#8 ++ [0x42#8])

theorem aroundTheEnd_length (n : Nat) : (aroundTheEnd n).length = n + 2 := by
  simp only [aroundTheEnd, List.length_cons, List.length_append, List.length_replicate, List.length_nil]

theorem aroundTheEnd_last (n : Nat) : (aroundTheEnd n)[n + 1]? = some 0x42#8 := by
  rw [aroundTheEnd, List.getElem?_cons_succ, List.getElem?_append_right (by simp), List.length_replicate, Nat.sub_self]
  rfl

/-- A full image whose last instruction begins at 0xFFFF and ends at 0x0000. -/
def wrapping : State := at_ 0xFFFF#16 (aroundTheEnd 65534)

theorem wrapping_length : wrapping.image.length = 65536 := aroundTheEnd_length 65534

theorem codeAt_wrapping : CodeAt wrapping (encodeWith CodeMap.standard (.push .C)) := by
  refine ⟨.inl wrapping_length, ?_⟩
  intro k hk
  change k < 2 at hk
  interval_cases k
  · exact aroundTheEnd_last 65534
  · rfl

theorem witness_StepRunsTheInstructionInTheImage :
    CodeMap.standard.wf = true ∧
    (pushNext.ready = true ∧ imageWf pushNext.image = true ∧ CodeAt pushNext (encodeWith CodeMap.standard (.push .A))) ∧
    wrapping.ready = true ∧ imageWf wrapping.image = true ∧ CodeAt wrapping (encodeWith CodeMap.standard (.push .C)) := by
  refine ⟨by decide, ⟨rfl, by decide, codeAt_pushNext⟩, rfl, ?_, codeAt_wrapping⟩
  simp only [imageWf, wrapping_length]
  decide

/-- A full image of NOPs, at its last byte. -/
def fullNops : State := at_ 0xFFFF#16 (List.replicate 65536 0x00#8)

theorem fullNops_length : fullNops.image.length = 65536 := by simp only [fullNops, at_, List.length_replicate]

theorem witness_PastTheImageEnd :
    ((at_ 0x0001#16 [0x00#8]).ready = true ∧ (at_ 0x0001#16 [0x00#8]).image.length < 65536 ∧
      (at_ 0x0001#16 [0x00#8]).pc.toNat = (at_ 0x0001#16 [0x00#8]).image.length) ∧
    ((at_ 0x0002#16 [0x00#8]).ready = true ∧ (at_ 0x0002#16 [0x00#8]).image.length < 65536 ∧
      (at_ 0x0002#16 [0x00#8]).image.length < (at_ 0x0002#16 [0x00#8]).pc.toNat) ∧
    fullNops.ready = true ∧ fullNops.image.length = 65536 := by
  exact ⟨by decide, by decide, rfl, fullNops_length⟩

theorem codeAt_unassigned : CodeAt (at_ 0x0001#16 [0x00#8, 0x2E#8]) [0x2E#8] := by
  refine ⟨by decide, ?_⟩
  intro k hk
  change k < 1 at hk
  interval_cases k
  rfl

theorem witness_InvalidOpcodeFault :
    (at_ 0x0001#16 [0x00#8, 0x2E#8]).ready = true ∧ imageWf (at_ 0x0001#16 [0x00#8, 0x2E#8]).image = true ∧
    CodeAt (at_ 0x0001#16 [0x00#8, 0x2E#8]) [0x2E#8] ∧ 0x2E#8 ∉ assignedOpcodes := by
  exact ⟨rfl, by decide, codeAt_unassigned, by decide⟩

theorem witness_TruncatedInstructionFault :
    (at_ 0x0000#16 [0x16#8, 0x00#8, 0x00#8]).ready = true ∧ (at_ 0x0000#16 [0x16#8, 0x00#8, 0x00#8]).image.length < 65536 ∧
    (at_ 0x0000#16 [0x16#8, 0x00#8, 0x00#8]).image[(at_ 0x0000#16 [0x16#8, 0x00#8, 0x00#8]).pc.toNat]? =
      some (opcodeByte .stInd) ∧
    (at_ 0x0000#16 [0x16#8, 0x00#8, 0x00#8]).image.length <
      (at_ 0x0000#16 [0x16#8, 0x00#8, 0x00#8]).pc.toNat + Op.len .stInd := by
  decide

/-- LD with two bad register ids, of which the first is reported; and with the second alone bad. -/
theorem witness_InvalidRegisterFault :
    ((at_ 0x0000#16 [0x10#8, 0x09#8, 0x07#8]).ready = true ∧ imageWf (at_ 0x0000#16 [0x10#8, 0x09#8, 0x07#8]).image = true ∧
      [0x09#8, 0x07#8].length + 1 = Op.len .ldReg ∧
      CodeAt (at_ 0x0000#16 [0x10#8, 0x09#8, 0x07#8]) (opcodeByte .ldReg :: [0x09#8, 0x07#8])) ∧
    (regFieldBytes .ldReg [0x09#8, 0x07#8]).find? (fun b => decide (4 < b.toNat)) = some 0x09#8 ∧
    (regFieldBytes .ldReg [0x04#8, 0x05#8]).find? (fun b => decide (4 < b.toNat)) = some 0x05#8 := by
  refine ⟨⟨rfl, by decide, rfl, ⟨by decide, ?_⟩⟩, by decide, by decide⟩
  intro k hk
  change k < 3 at hk
  interval_cases k <;> rfl

/-- Each clause: a machine that is not ready; and a ready machine that accepts a load. -/
theorem witness_NotReadyIsRefused :
    ({ State.reset with ready := false }).ready = false ∧
    State.reset.ready = true ∧ portLoad [0x42#8] State.reset = .next { State.reset with image := [0x42#8], ready := false } := by
  exact ⟨rfl, rfl, rfl⟩

/-- Each clause: pc = L; pc past L; an unassigned opcode; a truncated instruction; a whole one that runs; a bad register. -/
theorem witness_ChecksRunInOrder :
    (at_ 0x0000#16 []).pc.toNat = (at_ 0x0000#16 []).image.length ∧
    (at_ 0x0000#16 []).image.length < (at_ 0x0001#16 []).pc.toNat ∧
    ((at_ 0x0000#16 [0x44#8]).image[(at_ 0x0000#16 [0x44#8]).pc.toNat]? = some 0x44#8 ∧
      opOfByte CodeMap.standard 0x44#8 = none) ∧
    ((at_ 0x0000#16 [0x42#8]).image.length < (at_ 0x0000#16 [0x42#8]).pc.toNat + Op.len .push ∧
      opOfByte CodeMap.standard 0x42#8 = some .push) ∧
    pushNext.pc.toNat + Op.len .push ≤ pushNext.image.length ∧
    (at_ 0x0000#16 [0x42#8, 0x05#8]).pc.toNat + Op.len .push ≤ (at_ 0x0000#16 [0x42#8, 0x05#8]).image.length := by
  decide

theorem witness_FullImageHasNoEnd : fullNops.ready = true ∧ fullNops.image.length = 65536 := by
  exact ⟨rfl, fullNops_length⟩

theorem witness_FaultsRepeat :
    (at_ 0x0000#16 [0x15#8]).ready = true ∧ step (at_ 0x0000#16 [0x15#8]) = .fault (.invalidOpcode 0x0000#16 0x15#8) ∧
    step (at_ 0x0000#16 []) = .fault .endOfImage := by
  exact ⟨rfl, rfl, rfl⟩

/-- A state with events and memory in which the invariant holds. -/
def busy : State :=
  { oracle with image := [0x42#8, 0x01#8], b := 0x33#8, mem := [(0x0FF2, 0x07#8)], ioEvents := [⟨0x0FF2#16, 0x07#8⟩] }

theorem busy_inv : busy.Inv := ⟨by decide, by decide, by simp only [busy]; decide⟩

theorem witness_StepKeepsInvariant :
    busy.Inv ∧ step busy =
      .next { busy with pc := 0x0002#16, mem := [(0x0FF0, 0xFF#8), (0x0FF1, 0xFF#8), (0x0FF2, 0x07#8), (0xFFFF, 0x33#8)] } := by
  exact ⟨busy_inv, rfl⟩

theorem witness_ResetHasInvariant : imageWf busy.image = true ∧ ∀ e ∈ busy.ioEvents, isHostIo e.addr = true := by
  exact ⟨busy_inv.image, busy_inv.events⟩

theorem witness_HostOperationsKeepInvariant :
    busy.Inv ∧ portLoad [0x00#8] busy = .next { busy with image := [0x00#8], ready := false } ∧
    portRun 0 busy = .ok ⟨0, none, busy⟩ := by
  exact ⟨busy_inv, rfl, rfl⟩

theorem witness_NoStepReachesTheImage :
    step (at_ 0x0000#16 [0x2C#8]) =
      .next { at_ 0x0001#16 [0x2C#8] with a := 0x01#8, flags := fl false true false false } := by
  rfl

theorem witness_LoadOperation :
    65536 < (List.replicate 65537 0x00#8).length ∧ (List.replicate 65536 0x00#8).length ≤ 65536 := by
  simp only [List.length_replicate]
  decide

theorem witness_RunCountsExecutedInstructions :
    (at_ 0x0000#16 [0x00#8]).ready = true ∧
    portRun 5 (at_ 0x0000#16 [0x00#8]) = .ok ⟨1, some .endOfImage, at_ 0x0001#16 [0x00#8]⟩ := by
  exact ⟨rfl, rfl⟩

theorem witness_HostMemoryAccess : busy.mem.wf = true ∧ (0x0FF1#16 : Addr) ≠ 0x0FF0#16 := by decide

/-- Both clauses, at the addresses on either side of each end of the intercepted range. -/
theorem witness_ByteReads :
    (State.reset.ioIntercept = .none ∧ oracle.ioIntercept = .oracle) ∧
    ((0x0FF1#16 : Addr).toNat < 0x0FF2 ∧ 0x0FFF < (0x1000#16 : Addr).toNat) ∧
    (0x0FF2 ≤ (0x0FF2#16 : Addr).toNat ∧ (0x0FF2#16 : Addr).toNat ≤ 0x0FFF) ∧
    0x0FF2 ≤ (0x0FFF#16 : Addr).toNat ∧ (0x0FFF#16 : Addr).toNat ≤ 0x0FFF := by
  decide

theorem witness_ByteReads_values :
    memRead 0x0FF1#16 oracle = (0x00#8, oracle) ∧ memRead 0x1000#16 oracle = (0x00#8, oracle) ∧
    memRead 0x0FF2#16 State.reset = (0x00#8, State.reset) ∧
    memRead 0x0FF2#16 oracle = (Config.ioDraw 0, { oracle with ioDraws := 1 }) := by
  exact ⟨rfl, rfl, rfl, rfl⟩

theorem witness_ByteWrites :
    oracle.mem.wf = true ∧ (memWrite 0x0FF1#16 0x01#8 oracle).ioEvents = [] ∧
    (memWrite 0x0FF2#16 0x01#8 oracle).ioEvents = [⟨0x0FF2#16, 0x01#8⟩] ∧
    (memWrite 0x0FFF#16 0x01#8 oracle).ioEvents = [⟨0x0FFF#16, 0x01#8⟩] ∧
    (memWrite 0x1000#16 0x01#8 oracle).ioEvents = [] ∧ (memWrite 0x0FF2#16 0x01#8 State.reset).ioEvents = [] := by
  decide

/-- The one hypothesis of StackPointerIsTwoBytes, StMemory, StoreMovesTheStackPointer, CallPushesAndJumps, RetPopsIntoPc,
PushStores and PopLoads: a memory in canonical form. It is met with SP at each end and where a stack write meets SP's bytes. -/
def withSp (sp : Addr) : State := spWrite sp State.reset

theorem witness_canonical_memory :
    (withSp 0x0000#16).mem.wf = true ∧ (withSp 0x0FF1#16).mem.wf = true ∧ (withSp 0xFFFF#16).mem.wf = true ∧
    busy.mem.wf = true := by
  decide

theorem witness_StackWritesOnSp :
    (withSp 0x0FF1#16).mem.wf = true ∧ spRead (withSp 0x0FF1#16) = 0x0FF1#16 ∧
    (withSp 0x0FF2#16).mem.wf = true ∧ spRead (withSp 0x0FF2#16) = 0x0FF2#16 ∧
    (withSp 0x0FF3#16).mem.wf = true ∧ spRead (withSp 0x0FF3#16) = 0x0FF3#16 := by
  decide

/-- SP = 0x0FF0 and 0x0FF3, next to the two excluded values; and SP = 0x1001 under interception, just past the window. -/
theorem witness_PushPopRoundTrip :
    ((withSp 0x0FF0#16).mem.wf = true ∧ spRead (withSp 0x0FF0#16) ≠ 0x0FF1#16 ∧ spRead (withSp 0x0FF0#16) ≠ 0x0FF2#16 ∧
      intercepted (spRead (withSp 0x0FF0#16) - 1#16) (withSp 0x0FF0#16) = false) ∧
    ((withSp 0x0FF3#16).mem.wf = true ∧ spRead (withSp 0x0FF3#16) ≠ 0x0FF1#16 ∧ spRead (withSp 0x0FF3#16) ≠ 0x0FF2#16 ∧
      intercepted (spRead (withSp 0x0FF3#16) - 1#16) (withSp 0x0FF3#16) = false) ∧
    (spWrite 0x1001#16 oracle).mem.wf = true ∧ spRead (spWrite 0x1001#16 oracle) ≠ 0x0FF1#16 ∧
      spRead (spWrite 0x1001#16 oracle) ≠ 0x0FF2#16 ∧
      intercepted (spRead (spWrite 0x1001#16 oracle) - 1#16) (spWrite 0x1001#16 oracle) = false := by
  decide

theorem witness_CallRetRoundTrip :
    ((withSp 0x0FF4#16).mem.wf = true ∧ spRead (withSp 0x0FF4#16) = 0x0FF4#16 ∧
      intercepted (spRead (withSp 0x0FF4#16) - 1#16) (withSp 0x0FF4#16) = false ∧
      intercepted (spRead (withSp 0x0FF4#16) - 2#16) (withSp 0x0FF4#16) = false) ∧
    (spWrite 0x1002#16 oracle).mem.wf = true ∧ spRead (spWrite 0x1002#16 oracle) = 0x1002#16 ∧
      intercepted (spRead (spWrite 0x1002#16 oracle) - 1#16) (spWrite 0x1002#16 oracle) = false ∧
      intercepted (spRead (spWrite 0x1002#16 oracle) - 2#16) (spWrite 0x1002#16 oracle) = false := by
  decide

/-- Both clauses: an instruction that leaves the flags and one that writes them. -/
theorem witness_FlagsWrittenByFiveMnemonics :
    (writesFlags (.push .A) = false ∧ exec (.push .A) State.reset = .next (pushByte 0x00#8 State.reset)) ∧
    writesFlags (.cmpImm 0x01#8) = true ∧
      exec (.cmpImm 0x01#8) State.reset = .next (setFlags (fl true false false true) State.reset) ∧
      exec (.cmpImm 0x01#8) (setFlags (fl true true true true) State.reset) =
        .next (setFlags (fl true false false true) State.reset) := by
  exact ⟨⟨rfl, rfl⟩, rfl, rfl, rfl⟩

theorem witness_FlagsReadByConditionalJumpsOnly :
    (Instr.op .inc) ∉ [Op.jc, .jnc, .jp, .jnp, .jz, .jnz, .js, .jns] ∧
    exec .ret (setFlags (fl true true true true) State.reset) =
      .next (setFlags (fl true true true true) { State.reset with mem := [(0x0FF1, 0x02#8)] }) := by
  exact ⟨by decide, rfl⟩

theorem witness_frames :
    exec (.push .B) { State.reset with b := 0x42#8 } =
      .next { State.reset with b := 0x42#8, mem := [(0x0FF0, 0xFF#8), (0x0FF1, 0xFF#8), (0xFFFF, 0x42#8)] } ∧
    setsPc (.push .B) = false ∧ Reg.B ∉ destRegs (.push .B) ∧ (0x0FF2#16 : Addr) ∉ storedAt (.push .B) State.reset := by
  exact ⟨rfl, rfl, by decide, by decide⟩

/-- One label with an instruction on its line, and a jump back to it. -/
def sampleLines : List AsmLine :=
  [⟨1, none, some ⟨.inc, []⟩⟩, ⟨2, some ['l'], some ⟨.dec, []⟩⟩, ⟨3, none, some ⟨.jmp, [.label ['l']]⟩⟩]

theorem witness_LabelsAreNopsAtTheirOffsets :
    assembleLines CodeMap.standard [] sampleLines = .ok [0x2C#8, 0x00#8, 0x2D#8, 0x30#8, 0x00#8, 0x01#8] ∧
    sampleLines = [⟨1, none, some ⟨.inc, []⟩⟩] ++ ⟨2, some ['l'], some ⟨.dec, []⟩⟩ ::
      [⟨3, none, some ⟨.jmp, [.label ['l']]⟩⟩] := by
  exact ⟨rfl, rfl⟩

theorem witness_AssembledInstructionsDecode :
    CodeMap.standard.wf = true ∧
    assembleLines CodeMap.standard [] sampleLines = .ok [0x2C#8, 0x00#8, 0x2D#8, 0x30#8, 0x00#8, 0x01#8] ∧
    sampleLines = [⟨1, none, some ⟨.inc, []⟩⟩, ⟨2, some ['l'], some ⟨.dec, []⟩⟩] ++
      ⟨3, none, some ⟨.jmp, [.label ['l']]⟩⟩ :: [] := by
  exact ⟨by decide, rfl, rfl⟩

end Sys2Proof.Tests
end

section
/-! No meaning but a conditional jump's looks at the flags (10_state R23). Each shared operation either commutes with
overwriting the flags or overwrites them itself; so does every instruction but the eight conditional jumps. -/

namespace Sys2Proof.Machine

/-! ## Operand sources and the operations that leave the flags -/

theorem srcReg_setFlags (r : Reg) (f : Flags) (s : State) :
    srcReg r (setFlags f s) = ((srcReg r s).1, setFlags f (srcReg r s).2) := by
  simp [srcReg]

theorem srcImm_setFlags (n : Byte) (f : Flags) (s : State) :
    srcImm n (setFlags f s) = ((srcImm n s).1, setFlags f (srcImm n s).2) := rfl

theorem srcInd_setFlags (a : Addr) (f : Flags) (s : State) :
    srcInd a (setFlags f s) = ((srcInd a s).1, setFlags f (srcInd a s).2) :=
  memRead_setFlags a f s

theorem srcIdx_setFlags (off : Byte) (f : Flags) (s : State) :
    srcIdx off (setFlags f s) = ((srcIdx off s).1, setFlags f (srcIdx off s).2) :=
  memRead_setFlags (eaIdx off s) f s

theorem loadInto_setFlags (r : Reg) (v : Byte) (f : Flags) (s : State) :
    loadInto r (v, setFlags f s) = setFlags f (loadInto r (v, s)) :=
  writeReg_setFlags r v f s

theorem setPc_setFlags (tgt : Addr) (f : Flags) (s : State) :
    setPc tgt (setFlags f s) = setFlags f (setPc tgt s) := rfl

theorem pushByte_setFlags (v : Byte) (f : Flags) (s : State) :
    pushByte v (setFlags f s) = setFlags f (pushByte v s) := by
  simp only [pushByte_eq, spRead_setFlags, spWrite_setFlags, memWrite_setFlags]

theorem popByte_setFlags (f : Flags) (s : State) :
    popByte (setFlags f s) = ((popByte s).1, setFlags f (popByte s).2) := by
  simp only [popByte_eq, spRead_setFlags, memRead_setFlags, spWrite_setFlags]

theorem pushReturn_setFlags (ret : Addr) (f : Flags) (s : State) :
    pushReturn ret (setFlags f s) = setFlags f (pushReturn ret s) := by
  simp only [pushReturn_eq, spRead_setFlags, spWrite_setFlags, memWrite_setFlags]

theorem popReturn_setFlags (f : Flags) (s : State) :
    popReturn (setFlags f s) = ((popReturn s).1, setFlags f (popReturn s).2) := by
  simp only [popReturn_eq, spRead_setFlags, memRead_setFlags, spWrite_setFlags]

/-! ## The operations that overwrite the flags -/

theorem addToA_setFlags (n : Byte) (f : Flags) (s : State) : addToA n (setFlags f s) = addToA n s := by
  rw [addToA_eq, writeReg_setFlags, setFlags_setFlags, setFlags_a, addToA_eq]

theorem subFromA_setFlags (n : Byte) (f : Flags) (s : State) : subFromA n (setFlags f s) = subFromA n s := by
  rw [subFromA_eq, writeReg_setFlags, setFlags_setFlags, setFlags_a, subFromA_eq]

theorem compareA_setFlags (n : Byte) (f : Flags) (s : State) : compareA n (setFlags f s) = compareA n s := by
  simp only [compareA_eq, setFlags_a, setFlags_setFlags]

/-! ## The instructions -/

/-- An instruction that writes the flags answers the same whatever they were (R22, R23). -/
theorem exec_setFlags_of_writesFlags {i : Instr} (hw : writesFlags i = true) (f : Flags) (s : State) :
    exec i (setFlags f s) = exec i s := by
  cases i with
  | addReg _ | addImm _ | addInd _ | addIdx _ | inc =>
    simp only [exec, execAddReg, execAddImm, execAddInd, execAddIdx, execInc, srcReg_setFlags, srcImm_setFlags,
      srcInd_setFlags, srcIdx_setFlags, addToA_setFlags]
  | subReg _ | subImm _ | subInd _ | subIdx _ | dec =>
    simp only [exec, execSubReg, execSubImm, execSubInd, execSubIdx, execDec, srcReg_setFlags, srcImm_setFlags,
      srcInd_setFlags, srcIdx_setFlags, subFromA_setFlags]
  | cmpReg _ | cmpImm _ | cmpInd _ | cmpIdx _ =>
    simp only [exec, execCmpReg, execCmpImm, execCmpInd, execCmpIdx, srcReg_setFlags, srcImm_setFlags,
      srcInd_setFlags, srcIdx_setFlags, compareA_setFlags]
  | _ => cases hw

/-- An instruction that neither writes the flags nor is a conditional jump carries them through unread (R22, R23). -/
theorem exec_setFlags_of_not_writesFlags {i : Instr} {s t : State} (hw : writesFlags i = false)
    (hj : i.op ∉ [.jc, .jnc, .jp, .jnp, .jz, .jnz, .js, .jns]) (ht : exec i s = .next t) (f : Flags) :
    exec i (setFlags f s) = .next (setFlags f t) := by
  cases i with
  | nop => cases ht; rfl
  | ldReg _ _ | ldImm _ _ | ldInd _ _ | ldIdx _ _ =>
    cases ht
    simp only [exec, execLdReg, execLdImm, execLdInd, execLdIdx, srcReg_setFlags, srcImm_setFlags, srcInd_setFlags,
      srcIdx_setFlags, loadInto_setFlags]
  | stReg _ _ | stInd _ _ | stIdx _ _ =>
    cases ht
    simp only [exec, execStReg, execStInd, execStIdx, dstReg, dstInd, dstIdx, readReg_setFlags, eaIdx_setFlags,
      writeReg_setFlags, memWrite_setFlags]
  | push _ | pop _ =>
    cases ht
    simp only [exec, execPush, execPop, readReg_setFlags, pushByte_setFlags, popByte_setFlags, loadInto_setFlags]
  | jmp _ | call _ | ret =>
    cases ht
    simp only [exec, execJmp, execCall, execRet, setFlags_pc, pushReturn_setFlags, popReturn_setFlags, setPc_setFlags]
  | jc _ | jnc _ | jp _ | jnp _ | jz _ | jnz _ | js _ | jns _ => simp [Instr.op] at hj
  | _ => cases hw

/-- Settles O55: an instruction that writes the flags answers one state from both; any other carries the flags through
unread, so the two answers differ in the flags alone. -/
theorem flagsReadByConditionalJumpsOnly : Obligations.FlagsReadByConditionalJumpsOnly := by
  intro i f g s t u hj ht hu
  cases hw : writesFlags i with
  | true =>
    rw [exec_setFlags_of_writesFlags hw] at ht hu
    have htu : t = u := Host.Outcome.next.inj (ht.symm.trans hu)
    rw [htu]
  | false =>
    have hg := exec_setFlags_of_not_writesFlags hw hj ht g
    rw [setFlags_setFlags] at hg
    have hut : u = setFlags g t := Host.Outcome.next.inj (hu.symm.trans hg)
    rw [hut, setFlags_setFlags]

end Sys2Proof.Machine
end

section
/-! The stack pointer is the two bytes at 0x0FF0 and 0x0FF1 (10_state R38, R39). -/

namespace Sys2Proof.Machine

/-- SPWrite's frame: no byte but the two of SP changes (R39). -/
theorem spWrite_keepsBytesBut (v : Addr) (s : State) :
    KeepsBytesBut [Config.spHiAddr, Config.spLoAddr] s (spWrite v s) := by
  intro a ha
  obtain ⟨hhi, hlo⟩ : a ≠ Config.spHiAddr ∧ a ≠ Config.spLoAddr := by simpa using ha
  exact loadByte_spWrite_other hhi hlo v s

/-- Settles O32: each part is a law of SPRead or SPWrite, at the addresses 0x0FF0 and 0x0FF1 that Config names. -/
theorem stackPointerIsTwoBytes : Obligations.StackPointerIsTwoBytes := by
  intro s v hm
  have hhi : loadByte 0x0FF0#16 (spWrite v s) = hiByte v := loadByte_spWrite_hi hm v
  have hlo : loadByte 0x0FF1#16 (spWrite v s) = loByte v := loadByte_spWrite_lo hm v
  rw [hhi, hlo]
  exact ⟨bytePair_toNat _ _, spRead_eq_memRead s, spWrite_eq_memWrite v s, hiByte_toNat v, loByte_toNat v,
    spWrite_keepsBytesBut v s, spRead_spWrite hm v⟩

end Sys2Proof.Machine
end

section
/-! The decoder and the encoder invert each other under every code map (30_encoding R57, R60, R61, R71): each format reads
the operand bytes that the encoder writes, and so do all the rows that share it. -/

namespace Sys2Proof

/-! ## Each format on the bytes the encoder writes for it (R60); formats Z, I and X read them by computation -/

theorem formatR_regId {m : CodeMap} (h : m.wf = true) (c : Byte) (mk : Reg → Instr) (r : Reg) (rest : List Byte) :
    formatR m c mk (m.regId r :: rest) = .ok (mk r, rest) :=
  withReg_regId h r _

theorem formatW_hiByte_loByte (c : Byte) (mk : Addr → Instr) (a : Addr) (rest : List Byte) :
    formatW c mk (hiByte a :: loByte a :: rest) = .ok (mk a, rest) := by
  rw [formatW, bytePair_hiByte_loByte]

theorem formatRR_regId {m : CodeMap} (h : m.wf = true) (c : Byte) (mk : Reg → Reg → Instr) (r r2 : Reg)
    (rest : List Byte) : formatRR m c mk (m.regId r :: m.regId r2 :: rest) = .ok (mk r r2, rest) := by
  rw [formatRR, withReg_regId h, withReg_regId h]

theorem formatRB_regId {m : CodeMap} (h : m.wf = true) (c : Byte) (mk : Reg → Byte → Instr) (r : Reg) (n : Byte)
    (rest : List Byte) : formatRB m c mk (m.regId r :: n :: rest) = .ok (mk r n, rest) :=
  withReg_regId h r _

theorem formatRW_regId {m : CodeMap} (h : m.wf = true) (c : Byte) (mk : Reg → Addr → Instr) (r : Reg) (a : Addr)
    (rest : List Byte) : formatRW m c mk (m.regId r :: hiByte a :: loByte a :: rest) = .ok (mk r a, rest) := by
  rw [formatRW, withReg_regId h, bytePair_hiByte_loByte]

/-! ## Decoding what was encoded (R71) -/

/-- An encoding is its row's opcode byte and then the operand bytes (R60). -/
theorem encodeWith_eq_cons (m : CodeMap) (i : Instr) : encodeWith m i = m.opcode i.op :: (encodeWith m i).tail :=
  (List.cons_head?_tail (Laws.Shape.all i m).1).symm

/-- After its own opcode byte the decoder goes on with the operands of that row (R61). -/
theorem decodeWith_opcode_cons {m : CodeMap} (h : m.wf = true) (o : Op) (bytes : List Byte) :
    decodeWith m (m.opcode o :: bytes) = decodeOperands m (m.opcode o) o bytes := by
  rw [decodeWith, opOfByte_opcode h]

/-- A row's operand decoder reads the operand bytes of each of its instructions, and stops where they end. -/
theorem decodeOperands_encodeWith_tail {m : CodeMap} (h : m.wf = true) (c : Byte) (i : Instr) (rest : List Byte) :
    decodeOperands m c i.op ((encodeWith m i).tail ++ rest) = .ok (i, rest) := by
  cases i with
  | nop | inc | dec | ret => rfl
  | addImm n | addIdx n | subImm n | subIdx n | cmpImm n | cmpIdx n => rfl
  | addReg r | subReg r | cmpReg r | push r | pop r => exact formatR_regId h c _ r rest
  | addInd a | subInd a | cmpInd a | jmp a | jc a | jnc a | jp a | jnp a | jz a | jnz a | js a | jns a | call a =>
    exact formatW_hiByte_loByte c _ a rest
  | ldReg r r2 | stReg r r2 => exact formatRR_regId h c _ r r2 rest
  | ldImm r n | ldIdx r n | stIdx r n => exact formatRB_regId h c _ r n rest
  | ldInd r a | stInd r a => exact formatRW_regId h c _ r a rest

/-- Settles O1: the opcode byte is read back as its row, and the row's format reads back the operands. -/
theorem decodeEncodeRoundTrip : Obligations.DecodeEncodeRoundTrip := by
  intro m h i rest
  calc decodeWith m (encodeWith m i ++ rest)
      = decodeWith m (m.opcode i.op :: ((encodeWith m i).tail ++ rest)) := by
        rw [← List.cons_append, ← encodeWith_eq_cons]
    _ = decodeOperands m (m.opcode i.op) i.op ((encodeWith m i).tail ++ rest) := decodeWith_opcode_cons h _ _
    _ = .ok (i, rest) := decodeOperands_encodeWith_tail h _ i rest

/-! ## Encoding what was decoded (R57) -/

/-- What decodes begins with an opcode byte of the map, and the operands of its row decode from the bytes after it. -/
theorem decodeWith_ok {m : CodeMap} {bytes : List Byte} {d : Instr × List Byte} (h : decodeWith m bytes = .ok d) :
    ∃ o bs, bytes = m.opcode o :: bs ∧ decodeOperands m (m.opcode o) o bs = .ok d := by
  match bytes, h with
  | b :: bs, h =>
    rw [decodeWith] at h
    split at h
    · cases h
    · next o ho =>
      obtain rfl := opcode_of_opOfByte ho
      exact ⟨o, bs, rfl, h⟩

/-- Operand bytes that decode, behind their row's opcode byte, are the encoding of what they decode to. -/
theorem encodeWith_of_decodeOperands_ok {m : CodeMap} {c : Byte} {o : Op} {i : Instr} {bs rest : List Byte}
    (h : decodeOperands m c o bs = .ok (i, rest)) : m.opcode o :: bs = encodeWith m i ++ rest := by
  cases o with
  | nop | inc | dec | ret =>
    obtain ⟨rfl, rfl⟩ := formatZ_ok h
    rfl
  | addReg | subReg | cmpReg | push | pop =>
    obtain ⟨r, rfl, rfl⟩ := formatR_ok h
    rfl
  | addImm | addIdx | subImm | subIdx | cmpImm | cmpIdx =>
    obtain ⟨n, rfl, rfl⟩ := formatB_ok h
    rfl
  | addInd | subInd | cmpInd | jmp | jc | jnc | jp | jnp | jz | jnz | js | jns | call =>
    obtain ⟨hi, lo, rfl, rfl⟩ := formatW_ok h
    simp [encodeWith]
  | ldReg | stReg =>
    obtain ⟨r, r2, rfl, rfl⟩ := formatRR_ok h
    rfl
  | ldImm | ldIdx | stIdx =>
    obtain ⟨r, n, rfl, rfl⟩ := formatRB_ok h
    rfl
  | ldInd | stInd =>
    obtain ⟨r, hi, lo, rfl, rfl⟩ := formatRW_ok h
    simp [encodeWith]

/-- Settles O2: the first byte is the opcode of a row, and the row's format accounts for every byte after it. -/
theorem decodedBytesAreTheEncoding : Obligations.DecodedBytesAreTheEncoding := by
  intro m bytes rest i h
  obtain ⟨o, bs, rfl, hops⟩ := decodeWith_ok h
  exact encodeWith_of_decodeOperands_ok hops

end Sys2Proof
end

section
/-! What the opcode byte and the register id bytes mean under the spec's tables (30_encoding R59, R61, R62, R68). -/

namespace Sys2Proof

open Machine

/-! ## InvalidOpcode comes from the opcode byte alone (R68, R133) -/

/-- Where a register field's continuation fails, the failure is the field's own bad id or comes from the continuation. -/
theorem withReg_error {m : CodeMap} {b : Byte} {k : Reg → Decoded} {e : DecodeError} (h : withReg m b k = .error e) :
    e = .invalidRegister b ∨ ∃ r, k r = .error e := by
  rw [withReg] at h
  split at h
  · next r _ => exact .inr ⟨r, h⟩
  · cases h
    exact .inl rfl

/-- A register field with nothing left to check after it fails only for its own bad id. -/
theorem withReg_pure_error {m : CodeMap} {b : Byte} {f : Reg → Instr × List Byte} {e : DecodeError}
    (h : withReg m b (fun r => .ok (f r)) = .error e) : ∃ x, e = .invalidRegister x := by
  obtain rfl | ⟨r, hr⟩ := withReg_error h
  · exact ⟨b, rfl⟩
  · cases hr

/-- The two ways operand bytes after the opcode byte c are no operands: one is missing, or one names no register. -/
def OperandError (c : Byte) (e : DecodeError) : Prop := e = .truncated c ∨ ∃ x, e = .invalidRegister x

theorem formatR_error {m : CodeMap} {c : Byte} {mk : Reg → Instr} {bytes : List Byte} {e : DecodeError}
    (h : formatR m c mk bytes = .error e) : OperandError c e := by
  match bytes, h with
  | [], h => cases h; exact .inl rfl
  | _ :: _, h => exact .inr (withReg_pure_error h)

theorem formatB_error {c : Byte} {mk : Byte → Instr} {bytes : List Byte} {e : DecodeError}
    (h : formatB c mk bytes = .error e) : OperandError c e := by
  match bytes, h with
  | [], h => cases h; exact .inl rfl

theorem formatW_error {c : Byte} {mk : Addr → Instr} {bytes : List Byte} {e : DecodeError}
    (h : formatW c mk bytes = .error e) : OperandError c e := by
  match bytes, h with
  | [], h | [_], h => cases h; exact .inl rfl

theorem formatRR_error {m : CodeMap} {c : Byte} {mk : Reg → Reg → Instr} {bytes : List Byte} {e : DecodeError}
    (h : formatRR m c mk bytes = .error e) : OperandError c e := by
  match bytes, h with
  | [], h | [_], h => cases h; exact .inl rfl
  | b1 :: _ :: _, h =>
    obtain rfl | ⟨r, hr⟩ := withReg_error h
    · exact .inr ⟨b1, rfl⟩
    · exact .inr (withReg_pure_error hr)

theorem formatRB_error {m : CodeMap} {c : Byte} {mk : Reg → Byte → Instr} {bytes : List Byte} {e : DecodeError}
    (h : formatRB m c mk bytes = .error e) : OperandError c e := by
  match bytes, h with
  | [], h | [_], h => cases h; exact .inl rfl
  | _ :: _ :: _, h => exact .inr (withReg_pure_error h)

theorem formatRW_error {m : CodeMap} {c : Byte} {mk : Reg → Addr → Instr} {bytes : List Byte} {e : DecodeError}
    (h : formatRW m c mk bytes = .error e) : OperandError c e := by
  match bytes, h with
  | [], h | [_], h | [_, _], h => cases h; exact .inl rfl
  | _ :: _ :: _ :: _, h => exact .inr (withReg_pure_error h)

theorem decodeOperands_error {m : CodeMap} {c : Byte} {o : Op} {bs : List Byte} {e : DecodeError}
    (h : decodeOperands m c o bs = .error e) : OperandError c e := by
  cases o with
  | nop | inc | dec | ret => cases h
  | addReg | subReg | cmpReg | push | pop => exact formatR_error h
  | addImm | addIdx | subImm | subIdx | cmpImm | cmpIdx => exact formatB_error h
  | addInd | subInd | cmpInd | jmp | jc | jnc | jp | jnp | jz | jnz | js | jns | call => exact formatW_error h
  | ldReg | stReg => exact formatRR_error h
  | ldImm | ldIdx | stIdx => exact formatRB_error h
  | ldInd | stInd => exact formatRW_error h

theorem decodeOperands_ne_invalidOpcode (m : CodeMap) (b c : Byte) (o : Op) (bs : List Byte) :
    decodeOperands m c o bs ≠ .error (.invalidOpcode b) := by
  intro h
  obtain he | ⟨x, he⟩ := decodeOperands_error h
  · cases he
  · cases he

theorem decodeWith_cons_eq_invalidOpcode_iff (m : CodeMap) (b : Byte) (rest : List Byte) :
    decodeWith m (b :: rest) = .error (.invalidOpcode b) ↔ opOfByte m b = none := by
  rw [decodeWith]
  split
  · next h => simp [h]
  · next o h => simp [h, decodeOperands_ne_invalidOpcode]

theorem opOfByte_eq_none_iff (m : CodeMap) (b : Byte) : opOfByte m b = none ↔ b ∉ Op.all.map m.opcode := by
  simp [opOfByte]

theorem assignedOpcodes_eq_map : assignedOpcodes = Op.all.map opcodeByte := rfl

/-- Settles O4: InvalidOpcode is answered exactly where no row has the byte, and the rows' bytes are the 35. -/
theorem unassignedOpcodesAreRejected : Obligations.UnassignedOpcodesAreRejected := by
  intro b rest
  rw [assignedOpcodes_eq_map]
  exact (decodeWith_cons_eq_invalidOpcode_iff _ b rest).trans (opOfByte_eq_none_iff _ b)

/-! ## The register ids (R59, R134) -/

theorem regIdByte_toNat_lt (r : Reg) : (regIdByte r).toNat < 5 := by
  cases r <;> decide

/-- The five ids are the bytes below 5, so a byte from 5 up names no register (R59). -/
theorem regOfByte_standard_eq_none {b : Byte} (hb : 5 ≤ b.toNat) : regOfByte CodeMap.standard b = none := by
  rw [Option.eq_none_iff_forall_ne_some]
  intro r hr
  have hid : regIdByte r = b := regId_of_regOfByte hr
  have hlt : b.toNat < 5 := hid ▸ regIdByte_toNat_lt r
  omega

theorem withReg_of_regOfByte_eq_none {m : CodeMap} {b : Byte} (h : regOfByte m b = none) (k : Reg → Decoded) :
    withReg m b k = .error (.invalidRegister b) := by
  rw [withReg, h]

/-- Settles O6: the ids below 5 are read back by the lookup, and it finds none for a byte from 5 up. -/
theorem registerIdBytes : Obligations.RegisterIdBytes := by
  have hid := fun r => regOfByte_regId CodeMap.standard_wf r
  exact ⟨hid .A, hid .B, hid .C, hid .X, hid .Y, fun b hb => regOfByte_standard_eq_none hb,
    fun b k hb => withReg_of_regOfByte_eq_none (regOfByte_standard_eq_none hb) k⟩

/-- Settles O7: R62's bit patterns, evaluated row by row of the opcode map. -/
theorem opcodeMapIsRegular : Obligations.OpcodeMapIsRegular :=
  ⟨rfl, rfl, rfl, rfl, rfl, rfl⟩

end Sys2Proof
end

section
/-! XY is the pair X:Y, so it follows each write to X or Y (10_state R15, 30_encoding R65). -/

namespace Sys2Proof.Machine

/-- `hi:lo` is the high byte shifted past the low one (R6, R15). -/
theorem bytePair_eq_shiftLeft_or (hi lo : Byte) : bytePair hi lo = (hi.setWidth 16 <<< 8) ||| lo.setWidth 16 := by
  rw [bytePair, BitVec.append_def, BitVec.shiftLeftZeroExtend_eq, BitVec.setWidth'_eq]

/-- Settles O33: XY is computed from X and Y alone, and the indexed address adds the offset to it. -/
theorem xyAndTheIndexedAddress : Obligations.XYAndTheIndexedAddress := by
  intro s v off
  exact ⟨bytePair_eq_shiftLeft_or s.x s.y, xy_toNat (writeReg .X v s), xy_toNat (writeReg .Y v s), rfl, rfl, rfl,
    eaIdx_toNat off s⟩

end Sys2Proof.Machine
end

section
/-! The bytes of an instruction and the decode faults of its beginnings and of bad register ids, for every row at once
(30_encoding R57, R59, R60, R134, R136). -/

namespace Sys2Proof

open Machine

/-- With fewer operand bytes than its format has, a row's instruction is truncated, whatever those bytes are (R136, R140). -/
theorem decodeOperands_of_length_lt {m : CodeMap} {c : Byte} {o : Op} {bs : List Byte}
    (h : bs.length + 1 < o.format.length) : decodeOperands m c o bs = .error (.truncated c) := by
  cases o with
  | nop | inc | dec | ret => exact absurd h (Nat.not_lt.mpr (Nat.le_add_left 1 _))
  | addReg | subReg | cmpReg | push | pop | addImm | addIdx | subImm | subIdx | cmpImm | cmpIdx =>
    match bs, h with
    | [], _ => rfl
  | addInd | subInd | cmpInd | jmp | jc | jnc | jp | jnp | jz | jnz | js | jns | call
  | ldReg | stReg | ldImm | ldIdx | stIdx =>
    match bs, h with
    | [], _ | [_], _ => rfl
  | ldInd | stInd =>
    match bs, h with
    | [], _ | [_], _ | [_, _], _ => rfl

/-- Every proper beginning of an encoding that holds the opcode byte is truncated, and names that opcode (R136). -/
theorem decode_take_encode {i : Instr} {k : Nat} (hk : 0 < k) (hlt : k < (encode i).length) :
    decode ((encode i).take k) = .error (.truncated (opcodeByte i.op)) := by
  obtain ⟨j, rfl⟩ := Nat.exists_eq_add_one.mpr hk
  have hlen : (encode i).length = i.op.format.length := (Laws.Shape.all i CodeMap.standard).2
  have hcons : encode i = opcodeByte i.op :: (encode i).tail := encodeWith_eq_cons CodeMap.standard i
  have hshort : ((encode i).tail.take j).length + 1 < i.op.format.length := by
    rw [List.length_take]
    omega
  calc decode ((encode i).take (j + 1))
      = decode (opcodeByte i.op :: (encode i).tail.take j) := by rw [hcons, List.take_succ_cons, List.tail_cons]
    _ = decodeOperands CodeMap.standard (opcodeByte i.op) i.op ((encode i).tail.take j) :=
        decodeWith_opcode_cons CodeMap.standard_wf i.op _
    _ = .error (.truncated (opcodeByte i.op)) := decodeOperands_of_length_lt hshort

/-- What the encoder writes for an instruction are its bytes, in all three senses of EncodesAs. -/
theorem encodesAs_encode (i : Instr) : EncodesAs i (encode i) where
  encodes := rfl
  decodes rest := decodeEncodeRoundTrip CodeMap.standard CodeMap.standard_wf i rest
  truncates k hk hlt := by
    have hhead : (encode i).headD 0#8 = opcodeByte i.op := by
      rw [encode, encodeWith_eq_cons]
      rfl
    rw [hhead]
    exact decode_take_encode hk hlt

/-- A bad id in the first field of a row is rejected once the other operand bytes are there, whatever they are (R134,
R140). -/
theorem rejectsId_first {o : Op} {after : List Byte} (hreg : o.format.fields.head? = some .reg)
    (hlen : after.length + 2 = o.format.length) : RejectsId [opcodeByte o] after := by
  intro b hb rest
  have hbad : ∀ k, withReg CodeMap.standard b k = .error (.invalidRegister b) :=
    withReg_of_regOfByte_eq_none (regOfByte_standard_eq_none hb)
  refine (decodeWith_opcode_cons CodeMap.standard_wf o _).trans ?_
  cases o with
  | addReg | subReg | cmpReg | push | pop => exact hbad _
  | ldReg | stReg | ldImm | ldIdx | stIdx =>
    match after, hlen with
    | [_], _ => exact hbad _
  | ldInd | stInd =>
    match after, hlen with
    | [_, _], _ => exact hbad _
  | _ => cases hreg

/-- A bad id in the second register field of a row is rejected where the first names a register (R134). -/
theorem rejectsId_second {o : Op} (hrr : o.format = .RR) (r : Reg) : RejectsId [opcodeByte o, regIdByte r] [] := by
  intro b hb rest
  have hbad : ∀ k, withReg CodeMap.standard b k = .error (.invalidRegister b) :=
    withReg_of_regOfByte_eq_none (regOfByte_standard_eq_none hb)
  refine (decodeWith_opcode_cons CodeMap.standard_wf o _).trans ?_
  cases o with
  | ldReg | stReg => exact (withReg_regId CodeMap.standard_wf r _).trans (hbad _)
  | _ => cases hrr

end Sys2Proof
end

section
/-! LD and ST (40_data_movement R85 to R92): every form is one register write or one MemWrite, each with its full frame. -/

namespace Sys2Proof.Machine

/-- A register write changes that register and nothing else (R8). -/
theorem writesOnlyReg_writeReg (r : Reg) (v : Byte) (s : State) : WritesOnlyReg r v s (writeReg r v s) where
  value := readReg_writeReg_same r v s
  others _ hq := readReg_writeReg_other hq v s
  pc := writeReg_pc r v s
  flags := writeReg_flags r v s
  bytes a := loadByte_writeReg a r v s
  platform := ⟨writeReg_image r v s, writeReg_ready r v s, writeReg_ioIntercept r v s⟩
  io := ⟨writeReg_ioDraws r v s, writeReg_ioEvents r v s⟩

/-- MemWrite changes the byte at its address and nothing else, and is an event where the host intercepts (R36, R47). -/
theorem storesOnly_memWrite {s : State} (hm : s.mem.wf = true) (a : Addr) (v : Byte) :
    StoresOnly a v s (memWrite a v s) where
  stored := loadByte_memWrite_same hm a v
  others _ hb := loadByte_memWrite_other (List.ne_of_not_mem_cons hb) v s
  events := by
    rw [memWrite_ioEvents, eventsOf]
    split
    · rfl
    · exact (List.append_nil _).symm
  draws := memWrite_ioDraws a v s
  regs q := readReg_memWrite q a v s
  pc := memWrite_pc a v s
  flags := memWrite_flags a v s
  platform := ⟨memWrite_image a v s, memWrite_ready a v s, memWrite_ioIntercept a v s⟩

/-- Settles O34: each form writes its source to r, and the source reads the state without changing it. -/
theorem ldRegisterAndImmediate : Obligations.LdRegisterAndImmediate := by
  intro s r r2 n
  have hldReg : exec (.ldReg r r2) s = .next (writeReg r (readReg r2 s) s) := rfl
  have hldImm : exec (.ldImm r n) s = .next (writeReg r n s) := rfl
  exact ⟨encodesAs_encode (.ldReg r r2), fun _ => rejectsId_first (o := .ldReg) rfl rfl,
    rejectsId_second (o := .ldReg) rfl r,
    encodesAs_encode (.ldImm r n), rejectsId_first (o := .ldImm) rfl rfl,
    ⟨_, hldReg, writesOnlyReg_writeReg r _ s⟩, ⟨_, hldImm, writesOnlyReg_writeReg r n s⟩⟩

/-- Settles O35: each form writes MemRead's answer to r in the state after that MemRead, at an address taken from s. -/
theorem ldMemory : Obligations.LdMemory := by
  intro s r addr off
  have hldInd : exec (.ldInd r addr) s = .next (writeReg r (memRead addr s).1 (memRead addr s).2) := rfl
  have hldIdx : exec (.ldIdx r off) s =
      .next (writeReg r (memRead (eaIdx off s) s).1 (memRead (eaIdx off s) s).2) := rfl
  exact ⟨encodesAs_encode (.ldInd r addr), rejectsId_first (o := .ldInd) rfl rfl,
    encodesAs_encode (.ldIdx r off), rejectsId_first (o := .ldIdx) rfl rfl,
    ⟨_, hldInd, writesOnlyReg_writeReg r _ _⟩, ⟨_, hldIdx, writesOnlyReg_writeReg r _ _⟩⟩

/-- Settles O36: the register form of ST writes r's value to r2. -/
theorem stRegister : Obligations.StRegister := by
  intro s r r2
  have hstReg : exec (.stReg r r2) s = .next (writeReg r2 (readReg r s) s) := rfl
  exact ⟨encodesAs_encode (.stReg r r2), fun _ => rejectsId_first (o := .stReg) rfl rfl,
    rejectsId_second (o := .stReg) rfl r, ⟨_, hstReg, writesOnlyReg_writeReg r2 _ s⟩⟩

/-- Settles O37: each form is MemWrite of r's value at its address. -/
theorem stMemory : Obligations.StMemory := by
  intro s r addr off hm
  have hstInd : exec (.stInd r addr) s = .next (memWrite addr (readReg r s) s) := rfl
  have hstIdx : exec (.stIdx r off) s = .next (memWrite (eaIdx off s) (readReg r s) s) := rfl
  exact ⟨encodesAs_encode (.stInd r addr), rejectsId_first (o := .stInd) rfl rfl,
    encodesAs_encode (.stIdx r off), rejectsId_first (o := .stIdx) rfl rfl,
    ⟨_, hstInd, storesOnly_memWrite hm addr _⟩, ⟨_, hstIdx, storesOnly_memWrite hm (eaIdx off s) _⟩⟩

end Sys2Proof.Machine
end

section
/-! ADD, SUB, INC and DEC (41_arithmetic R94 to R105): each writes an 8-bit result to A and follows it with the flags. What
the four share is proved once, for any result and carry; only the result and the carry differ. -/

namespace Sys2Proof.Machine

/-! ## ArithFlags in numbers (R94) -/

theorem arithFlags_p (r : Byte) (carry : Bool) : (arithFlags r carry).p = decide (r.toNat % 2 = 1) :=
  Nat.testBit_zero r.toNat

theorem arithFlags_s (r : Byte) (carry : Bool) : (arithFlags r carry).s = decide (128 ≤ r.toNat) :=
  (BitVec.msb_eq_getLsbD_last r).symm.trans (BitVec.msb_eq_decide r)

theorem arithFlags_z (r : Byte) (carry : Bool) : (arithFlags r carry).z = decide (r.toNat = 0) :=
  decide_eq_decide.mpr BitVec.toNat_eq

/-! ## Writing a result and its flags (R94, R95) -/

/-- A holds r, C holds the carry or borrow, the other flags follow A, and nothing else changes: the part that AddsToA and
SubtractsFromA have in common, under the same field names (R94). -/
structure SetsAAndFlags (r : Byte) (carry : Bool) (s t : State) : Prop where
  acc      : t.a = r
  c        : t.flags.c = carry
  parity   : t.flags.p = decide (t.a.toNat % 2 = 1)
  sign     : t.flags.s = decide (128 ≤ t.a.toNat)
  zero     : t.flags.z = decide (t.a.toNat = 0)
  others   : KeepsRegsBut .A s t
  pc       : t.pc = s.pc
  bytes    : KeepsBytes s t
  platform : KeepsPlatform s t
  io       : KeepsIo s t

theorem setsAAndFlags_arithFlags (r : Byte) (carry : Bool) (s : State) :
    SetsAAndFlags r carry s (setFlags (arithFlags r carry) (writeReg .A r s)) where
  acc := rfl
  c := rfl
  parity := arithFlags_p r carry
  sign := arithFlags_s r carry
  zero := arithFlags_z r carry
  others q hq := (readReg_setFlags q _ _).trans (readReg_writeReg_other hq r s)
  pc := rfl
  bytes _ := rfl
  platform := ⟨rfl, rfl, rfl⟩
  io := ⟨rfl, rfl⟩

/-! ## The common ADD and the common SUB (R95) -/

theorem addsToA_addToA (n : Byte) (s : State) : AddsToA n s (addToA n s) := by
  have h : SetsAAndFlags (s.a + n) (decide (s.a.toNat + n.toNat > 255)) s (addToA n s) := by
    rw [addToA_eq]
    exact setsAAndFlags_arithFlags _ _ s
  have hsum : (addToA n s).a.toNat = (s.a.toNat + n.toNat) % 256 := by rw [h.acc, BitVec.toNat_add]
  exact { h with sum := hsum, carry := h.c }

theorem toNat_sub_eq_emod (a n : Byte) : ((a - n).toNat : Int) = ((a.toNat : Int) - (n.toNat : Int)) % 256 := by
  have ha := a.isLt
  have hn := n.isLt
  rw [BitVec.toNat_sub]
  omega

theorem subtractsFromA_subFromA (n : Byte) (s : State) : SubtractsFromA n s (subFromA n s) := by
  have h : SetsAAndFlags (s.a - n) (decide (s.a.toNat < n.toNat)) s (subFromA n s) := by
    rw [subFromA_eq]
    exact setsAAndFlags_arithFlags _ _ s
  have hdiff : ((subFromA n s).a.toNat : Int) = ((s.a.toNat : Int) - (n.toNat : Int)) % 256 := by
    rw [h.acc, toNat_sub_eq_emod]
  exact { h with difference := hdiff, borrow := h.c }

/-- Adding 1 carries out of 0xFF alone (R104). -/
theorem AddsToA.carry_one_iff {s t : State} (h : AddsToA 1#8 s t) : t.flags.c = true ↔ s.a = 0xFF#8 := by
  have ha := s.a.isLt
  have hone : (1#8).toNat = 1 := rfl
  have hff : (0xFF#8).toNat = 255 := rfl
  rw [h.carry, decide_eq_true_iff, BitVec.toNat_eq, hone, hff]
  omega

/-- Subtracting 1 borrows from 0x00 alone (R105). -/
theorem SubtractsFromA.borrow_one_iff {s t : State} (h : SubtractsFromA 1#8 s t) :
    t.flags.c = true ↔ s.a = 0x00#8 := by
  rw [h.borrow, decide_eq_true_iff, BitVec.toNat_eq]
  exact Nat.lt_one_iff

/-! ## The instructions -/

/-- Settles O39: each form is the common ADD of its source's value, in the state after that source's access. -/
theorem addForms : Obligations.AddForms := by
  intro s r n off addr
  have hreg : exec (.addReg r) s = .next (addToA (readReg r s) s) := rfl
  have himm : exec (.addImm n) s = .next (addToA n s) := rfl
  have hind : exec (.addInd addr) s = .next (addToA (memRead addr s).1 (memRead addr s).2) := rfl
  have hidx : exec (.addIdx off) s = .next (addToA (memRead (eaIdx off s) s).1 (memRead (eaIdx off s) s).2) := rfl
  exact ⟨encodesAs_encode (.addReg r), rejectsId_first (o := .addReg) rfl rfl, encodesAs_encode (.addImm n),
    encodesAs_encode (.addInd addr), encodesAs_encode (.addIdx off),
    ⟨_, hreg, addsToA_addToA _ _⟩, ⟨_, himm, addsToA_addToA _ _⟩,
    ⟨_, hind, addsToA_addToA _ _⟩, ⟨_, hidx, addsToA_addToA _ _⟩⟩

/-- Settles O40: each form is the common SUB of its source's value, in the state after that source's access. -/
theorem subForms : Obligations.SubForms := by
  intro s r n off addr
  have hreg : exec (.subReg r) s = .next (subFromA (readReg r s) s) := rfl
  have himm : exec (.subImm n) s = .next (subFromA n s) := rfl
  have hind : exec (.subInd addr) s = .next (subFromA (memRead addr s).1 (memRead addr s).2) := rfl
  have hidx : exec (.subIdx off) s = .next (subFromA (memRead (eaIdx off s) s).1 (memRead (eaIdx off s) s).2) := rfl
  exact ⟨encodesAs_encode (.subReg r), rejectsId_first (o := .subReg) rfl rfl, encodesAs_encode (.subImm n),
    encodesAs_encode (.subInd addr), encodesAs_encode (.subIdx off),
    ⟨_, hreg, subtractsFromA_subFromA _ _⟩, ⟨_, himm, subtractsFromA_subFromA _ _⟩,
    ⟨_, hind, subtractsFromA_subFromA _ _⟩, ⟨_, hidx, subtractsFromA_subFromA _ _⟩⟩

/-- Settles O41: INC is the common ADD of 1 and DEC the common SUB of 1, which carry at one end of the byte range each. -/
theorem incAndDec : Obligations.IncAndDec := by
  intro s
  have hinc : exec .inc s = .next (addToA 1#8 s) := rfl
  have hdec : exec .dec s = .next (subFromA 1#8 s) := rfl
  have hadd : AddsToA 1#8 s (addToA 1#8 s) := addsToA_addToA 1#8 s
  have hsub : SubtractsFromA 1#8 s (subFromA 1#8 s) := subtractsFromA_subFromA 1#8 s
  exact ⟨encodesAs_encode .inc, encodesAs_encode .dec,
    ⟨_, hinc, hadd, hadd.carry_one_iff⟩, ⟨_, hdec, hsub, hsub.borrow_one_iff⟩⟩

end Sys2Proof.Machine
end

section
/-! CMP (42_compare R106 to R111): all four flags by CMP's own rule, A not written; and how that rule differs from SUB's
(R107). -/

namespace Sys2Proof.Machine

/-! ## CmpFlags in numbers (R106) -/

theorem cmpFlags_p (acc n : Byte) : (cmpFlags acc n).p = decide (acc.toNat % 2 = n.toNat % 2) := by
  have hbit : ∀ v : Byte, v.getLsbD 0 = decide (v.toNat % 2 = 1) := fun v => Nat.testBit_zero v.toNat
  refine decide_eq_decide.mpr ?_
  rw [hbit, hbit, decide_eq_decide]
  omega

theorem cmpFlags_s (acc n : Byte) : (cmpFlags acc n).s = decide (acc.toInt < 0 ↔ n.toInt < 0) := by
  have hsign : ∀ v : Byte, v.getLsbD 7 = decide (v.toInt < 0) := fun v =>
    (BitVec.msb_eq_getLsbD_last v).symm.trans BitVec.msb_eq_toInt
  refine decide_eq_decide.mpr ?_
  rw [hsign, hsign, decide_eq_decide]

theorem cmpFlags_z (acc n : Byte) : (cmpFlags acc n).z = decide (acc.toNat = n.toNat) :=
  decide_eq_decide.mpr BitVec.toNat_eq

/-! ## The common CMP -/

theorem comparesA_compareA (n : Byte) (s : State) : ComparesA n s (compareA n s) where
  less := rfl
  parity := cmpFlags_p s.a n
  sign := cmpFlags_s s.a n
  zero := cmpFlags_z s.a n
  regs q := readReg_setFlags q _ s
  pc := rfl
  bytes _ := rfl
  platform := ⟨rfl, rfl, rfl⟩
  io := ⟨rfl, rfl⟩

/-! ## CMP against SUB, from the same A and operand (R107) -/

section
variable {n : Byte} {s t u : State}

theorem ComparesA.c_eq_sub (ht : ComparesA n s t) (hu : SubtractsFromA n s u) : t.flags.c = u.flags.c :=
  ht.less.trans hu.borrow.symm

/-- The difference of two bytes is 0 modulo 256 exactly when they are equal. -/
theorem ComparesA.z_eq_sub (ht : ComparesA n s t) (hu : SubtractsFromA n s u) : t.flags.z = u.flags.z := by
  have ha := s.a.isLt
  have hn := n.isLt
  have hdiff := hu.difference
  rw [ht.zero, hu.zero, decide_eq_decide]
  omega

/-- Bit 0 of the difference is 1 exactly when the operands differ in bit 0. -/
theorem ComparesA.p_eq_not_sub (ht : ComparesA n s t) (hu : SubtractsFromA n s u) : t.flags.p = !u.flags.p := by
  have hdiff := hu.difference
  rw [ht.parity, hu.parity, ← decide_not, decide_eq_decide]
  omega

end

/-! ## The instructions -/

/-- Settles O42: each form is the common CMP of its source's value, in the state after that source's access. -/
theorem cmpForms : Obligations.CmpForms := by
  intro s r n off addr
  have hreg : exec (.cmpReg r) s = .next (compareA (readReg r s) s) := rfl
  have himm : exec (.cmpImm n) s = .next (compareA n s) := rfl
  have hind : exec (.cmpInd addr) s = .next (compareA (memRead addr s).1 (memRead addr s).2) := rfl
  have hidx : exec (.cmpIdx off) s = .next (compareA (memRead (eaIdx off s) s).1 (memRead (eaIdx off s) s).2) := rfl
  exact ⟨encodesAs_encode (.cmpReg r), rejectsId_first (o := .cmpReg) rfl rfl, encodesAs_encode (.cmpImm n),
    encodesAs_encode (.cmpInd addr), encodesAs_encode (.cmpIdx off),
    ⟨_, hreg, comparesA_compareA _ _⟩, ⟨_, himm, comparesA_compareA _ _⟩,
    ⟨_, hind, comparesA_compareA _ _⟩, ⟨_, hidx, comparesA_compareA _ _⟩⟩

/-- Settles O43: the flags agree or differ as the two rules say. The S flags differ at A = n = 0, after reset: CMP finds
equal signs and sets S, SUB's result 0 has bit 7 clear. -/
theorem cmpIsNotSub : Obligations.CmpIsNotSub := by
  have hcmp : ∀ n s, exec (.cmpImm n) s = .next (compareA n s) := fun _ _ => rfl
  have hsub : ∀ n s, exec (.subImm n) s = .next (subFromA n s) := fun _ _ => rfl
  have hS : (compareA 0#8 State.reset).flags.s ≠ (subFromA 0#8 State.reset).flags.s := by decide
  refine ⟨fun s n => ?_, State.reset, 0#8, _, _, hcmp _ _, hsub _ _, hS⟩
  have ht : ComparesA n s (compareA n s) := comparesA_compareA n s
  have hu : SubtractsFromA n s (subFromA n s) := subtractsFromA_subFromA n s
  exact ⟨_, _, hcmp n s, hsub n s, ht.c_eq_sub hu, ht.z_eq_sub hu, ht.p_eq_not_sub hu, ht.regs .A⟩

end Sys2Proof.Machine
end

section
/-! JMP and the conditional jumps (43_control_flow R112 to R122): each is `if cond: pc <- tgt16` with its own condition. -/

namespace Sys2Proof.Machine

/-- Setting pc, or leaving it at next, changes nothing else (R112, R113). -/
theorem jumpsIf_jumpIf (cond : Bool) (tgt : Addr) (s : State) : JumpsIf cond tgt s (jumpIf cond tgt s) := by
  rw [jumpIf_eq]
  exact {
    pc := rfl
    regs := fun q => readReg_setPc q _ s
    flags := rfl
    bytes := fun _ => rfl
    platform := ⟨rfl, rfl, rfl⟩
    io := ⟨rfl, rfl⟩ }

/-- Settles O44: JMP is the jump whose condition always holds. -/
theorem jmpJumps : Obligations.JmpJumps := by
  intro s tgt
  have hjmp : exec (.jmp tgt) s = .next (jumpIf true tgt s) := rfl
  exact ⟨encodesAs_encode (.jmp tgt), _, hjmp, jumpsIf_jumpIf true tgt s⟩

/-- Settles O45: each of the eight is the jump on its own flag, or on that flag's negation. -/
theorem conditionalJumps : Obligations.ConditionalJumps := by
  intro s tgt
  have hjc : exec (.jc tgt) s = .next (jumpIf s.flags.c tgt s) := rfl
  have hjnc : exec (.jnc tgt) s = .next (jumpIf (!s.flags.c) tgt s) := rfl
  have hjp : exec (.jp tgt) s = .next (jumpIf s.flags.p tgt s) := rfl
  have hjnp : exec (.jnp tgt) s = .next (jumpIf (!s.flags.p) tgt s) := rfl
  have hjz : exec (.jz tgt) s = .next (jumpIf s.flags.z tgt s) := rfl
  have hjnz : exec (.jnz tgt) s = .next (jumpIf (!s.flags.z) tgt s) := rfl
  have hjs : exec (.js tgt) s = .next (jumpIf s.flags.s tgt s) := rfl
  have hjns : exec (.jns tgt) s = .next (jumpIf (!s.flags.s) tgt s) := rfl
  exact ⟨⟨encodesAs_encode (.jc tgt), _, hjc, jumpsIf_jumpIf _ tgt s⟩,
    ⟨encodesAs_encode (.jnc tgt), _, hjnc, jumpsIf_jumpIf _ tgt s⟩,
    ⟨encodesAs_encode (.jp tgt), _, hjp, jumpsIf_jumpIf _ tgt s⟩,
    ⟨encodesAs_encode (.jnp tgt), _, hjnp, jumpsIf_jumpIf _ tgt s⟩,
    ⟨encodesAs_encode (.jz tgt), _, hjz, jumpsIf_jumpIf _ tgt s⟩,
    ⟨encodesAs_encode (.jnz tgt), _, hjnz, jumpsIf_jumpIf _ tgt s⟩,
    ⟨encodesAs_encode (.js tgt), _, hjs, jumpsIf_jumpIf _ tgt s⟩,
    ⟨encodesAs_encode (.jns tgt), _, hjns, jumpsIf_jumpIf _ tgt s⟩⟩

end Sys2Proof.Machine
end

section
/-! CALL and RET (43_control_flow R123, R124): what CALL leaves in memory and in the host's events, what RET reads and
writes, and where RET gives back what CALL saved (44_stack R129 has the exceptions). -/

namespace Sys2Proof.Machine

/-! ## CALL's stack part (R123) -/

/-- The low byte of the return address lies one above its high byte, so just below the old SP. -/
theorem addr_sub_two_add_one (sp : Addr) : sp - 2#16 + 1#16 = sp - 1#16 := by bv_omega

theorem pushReturn_eq_sub_one (ret : Addr) (s : State) :
    pushReturn ret s =
      memWrite (spRead s - 1#16) (loByte ret)
        (memWrite (spRead s - 2#16) (hiByte ret) (spWrite (spRead s - 2#16) s)) := by
  rw [pushReturn_eq, addr_sub_two_add_one]

/-- The bytes after CALL's four writes, the latest write to an address first (R123, R129). -/
theorem loadByte_pushReturn {s : State} (hm : s.mem.wf = true) (a ret : Addr) :
    loadByte a (pushReturn ret s) =
      if a = spRead s - 1#16 then loByte ret
      else if a = spRead s - 2#16 then hiByte ret
      else if a = Config.spLoAddr then loByte (spRead s - 2#16)
      else if a = Config.spHiAddr then hiByte (spRead s - 2#16)
      else loadByte a s := by
  have hsp := spWrite_wf hm (spRead s - 2#16)
  rw [pushReturn_eq_sub_one, loadByte_memWrite (memWrite_wf hsp _ _), loadByte_memWrite hsp, loadByte_spWrite hm]

theorem eventsOf_congr {s t : State} (h : t.ioIntercept = s.ioIntercept) (a : Addr) (v : Byte) :
    eventsOf a v t = eventsOf a v s := by
  rw [eventsOf, intercepted_congr h, eventsOf]

/-- The two writes of the return address are CALL's only events, high byte first (R45, R47). -/
theorem pushReturn_ioEvents {s : State} (hm : s.mem.wf = true) (ret : Addr) :
    (pushReturn ret s).ioEvents =
      s.ioEvents ++ eventsOf (spRead s - 2#16) (hiByte ret) s ++ eventsOf (spRead s - 1#16) (loByte ret) s := by
  have hsp := spWrite_wf hm (spRead s - 2#16)
  rw [pushReturn_eq_sub_one, (storesOnly_memWrite (memWrite_wf hsp _ _) _ _).events,
    (storesOnly_memWrite hsp _ _).events, spWrite_ioEvents, eventsOf_congr (spWrite_ioIntercept _ _),
    eventsOf_congr ((memWrite_ioIntercept _ _ _).trans (spWrite_ioIntercept _ _))]

/-- Settles O46: CALL is its stack part, which the laws above describe, and then pc at the target. -/
theorem callPushesAndJumps : Obligations.CallPushesAndJumps := by
  intro s tgt hm
  have hcall : exec (.call tgt) s = .next (setPc tgt (pushReturn s.pc s)) := rfl
  exact ⟨encodesAs_encode (.call tgt), _, hcall, rfl, fun a => loadByte_pushReturn hm a s.pc,
    pushReturn_ioEvents hm s.pc, fun q => readReg_pushReturn q s.pc s, pushReturn_flags s.pc s,
    pushReturn_ioDraws s.pc s,
    ⟨pushReturn_image s.pc s, pushReturn_ready s.pc s, pushReturn_ioIntercept s.pc s⟩⟩

/-! ## RET's stack part (R124) -/

theorem spRead_popReturn {s : State} (hm : s.mem.wf = true) : spRead (popReturn s).2 = spRead s + 2#16 := by
  rw [popReturn_eq]
  exact spRead_spWrite (by rw [memRead_mem, memRead_mem]; exact hm) _

theorem popReturn_keepsBytesBut (s : State) :
    KeepsBytesBut [Config.spHiAddr, Config.spLoAddr] s (popReturn s).2 := by
  intro a ha
  rw [popReturn_eq, spWrite_keepsBytesBut _ _ a ha, loadByte_memRead, loadByte_memRead]

/-- Where the host intercepts neither byte, RET's address is the two bytes stored at SP. -/
theorem popReturn_fst_plain {s : State} (hhi : intercepted (spRead s) s = false)
    (hlo : intercepted (spRead s + 1#16) s = false) :
    (popReturn s).1 = bytePair (loadByte (spRead s) s) (loadByte (spRead s + 1#16) s) := by
  rw [popReturn_eq, memRead_plain hhi, memRead_plain hlo]

theorem spRead_setPc (pc : Addr) (s : State) : spRead (setPc pc s) = spRead s := rfl

theorem memRead_setPc (a pc : Addr) (s : State) :
    memRead a (setPc pc s) = ((memRead a s).1, setPc pc (memRead a s).2) := by
  have hint : intercepted a (setPc pc s) = intercepted a s := rfl
  cases h : intercepted a s with
  | true => rw [memRead_drawn (hint.trans h), memRead_drawn h]; rfl
  | false => rw [memRead_plain (hint.trans h), memRead_plain h]; rfl

/-- RET's stack part does not look at pc. -/
theorem popReturn_setPc (pc : Addr) (s : State) :
    popReturn (setPc pc s) = ((popReturn s).1, setPc pc (popReturn s).2) := by
  have hspWrite : ∀ v t, spWrite v (setPc pc t) = setPc pc (spWrite v t) := fun _ _ => rfl
  simp only [popReturn_eq, spRead_setPc, memRead_setPc, hspWrite]

theorem exec_ret_setPc (pc : Addr) (s : State) :
    exec .ret (setPc pc s) = .next (setPc (popReturn s).1 (popReturn s).2) := by
  rw [exec, execRet, popReturn_setPc]
  rfl

/-- Settles O47: RET reads the two bytes, and of its effects only SPWrite reaches memory. -/
theorem retPopsIntoPc : Obligations.RetPopsIntoPc := by
  intro s hm
  have hret : exec .ret s = .next (setPc (popReturn s).1 (popReturn s).2) := rfl
  exact ⟨encodesAs_encode .ret, _, hret, rfl, spRead_popReturn hm, popReturn_keepsBytesBut s, ⟨rfl, rfl⟩,
    fun q => readReg_popReturn q s, popReturn_flags s,
    ⟨popReturn_image s, popReturn_ready s, popReturn_ioIntercept s⟩⟩

/-! ## CALL and then RET (R124) -/

/-- A write outside SP's two bytes leaves SP (R40). -/
theorem spRead_memWrite_other {w : Addr} (hhi : w ≠ Config.spHiAddr) (hlo : w ≠ Config.spLoAddr) (v : Byte)
    (s : State) : spRead (memWrite w v s) = spRead s :=
  spRead_congr (loadByte_memWrite_other hhi.symm v s) (loadByte_memWrite_other hlo.symm v s)

/-- CALL leaves SP - 2 in SP unless its return address lands on SP's own bytes, which is so at three values of SP (R129). -/
theorem spRead_pushReturn {s : State} (hm : s.mem.wf = true) (h1 : spRead s ≠ 0x0FF1#16) (h2 : spRead s ≠ 0x0FF2#16)
    (h3 : spRead s ≠ 0x0FF3#16) (ret : Addr) : spRead (pushReturn ret s) = spRead s - 2#16 := by
  have hlow_hi : spRead s - 1#16 ≠ Config.spHiAddr := mt BitVec.sub_eq_iff_eq_add.mp h1
  have hlow_lo : spRead s - 1#16 ≠ Config.spLoAddr := mt BitVec.sub_eq_iff_eq_add.mp h2
  have hhigh_hi : spRead s - 2#16 ≠ Config.spHiAddr := mt BitVec.sub_eq_iff_eq_add.mp h2
  have hhigh_lo : spRead s - 2#16 ≠ Config.spLoAddr := mt BitVec.sub_eq_iff_eq_add.mp h3
  rw [pushReturn_eq_sub_one, spRead_memWrite_other hlow_hi hlow_lo, spRead_memWrite_other hhigh_hi hhigh_lo,
    spRead_spWrite hm]

theorem loadByte_pushReturn_lo {s : State} (hm : s.mem.wf = true) (ret : Addr) :
    loadByte (spRead s - 1#16) (pushReturn ret s) = loByte ret := by
  rw [loadByte_pushReturn hm, if_pos rfl]

theorem loadByte_pushReturn_hi {s : State} (hm : s.mem.wf = true) (ret : Addr) :
    loadByte (spRead s - 2#16) (pushReturn ret s) = hiByte ret := by
  have hne : spRead s - 2#16 ≠ spRead s - 1#16 := by bv_omega
  rw [loadByte_pushReturn hm, if_neg hne, if_pos rfl]

section
variable {s : State} (hm : s.mem.wf = true) (h1 : spRead s ≠ 0x0FF1#16) (h2 : spRead s ≠ 0x0FF2#16)
  (h3 : spRead s ≠ 0x0FF3#16)
include hm h1 h2 h3

/-- RET's stack part reads back the address that CALL's saved, where the host intercepts neither byte (R124). -/
theorem popReturn_pushReturn_fst (hlo : intercepted (spRead s - 1#16) s = false)
    (hhi : intercepted (spRead s - 2#16) s = false) (ret : Addr) : (popReturn (pushReturn ret s)).1 = ret := by
  have hsp : spRead (pushReturn ret s) = spRead s - 2#16 := spRead_pushReturn hm h1 h2 h3 ret
  have hsp1 : spRead (pushReturn ret s) + 1#16 = spRead s - 1#16 := by rw [hsp, addr_sub_two_add_one]
  have hint := intercepted_congr (pushReturn_ioIntercept ret s)
  rw [popReturn_fst_plain (by rw [hint, hsp, hhi]) (by rw [hint, hsp1, hlo]), hsp, addr_sub_two_add_one,
    loadByte_pushReturn_hi hm, loadByte_pushReturn_lo hm, bytePair_hiByte_loByte]

/-- RET's stack part adds the 2 that CALL's subtracted. -/
theorem spRead_popReturn_pushReturn (ret : Addr) : spRead (popReturn (pushReturn ret s)).2 = spRead s := by
  rw [spRead_popReturn (pushReturn_wf hm ret), spRead_pushReturn hm h1 h2 h3, BitVec.sub_add_cancel]

end

/-- Settles O52: whatever pc is between them, RET's stack part undoes CALL's. -/
theorem callRetRoundTrip : Obligations.CallRetRoundTrip := by
  intro s tgt pc hm h1 h2 h3 hlo hhi
  have hcall : exec (.call tgt) s = .next (setPc tgt (pushReturn s.pc s)) := rfl
  have hret : exec .ret (setPc pc (setPc tgt (pushReturn s.pc s))) =
      .next (setPc (popReturn (pushReturn s.pc s)).1 (popReturn (pushReturn s.pc s)).2) :=
    exec_ret_setPc pc (pushReturn s.pc s)
  refine ⟨_, _, hcall, rfl, hret, ?_, ?_, fun q => ?_, ?_⟩
  · rw [setPc_pc, popReturn_pushReturn_fst hm h1 h2 h3 hlo hhi]
  · rw [spRead_setPc, spRead_popReturn_pushReturn hm h1 h2 h3]
  · rw [readReg_setPc, readReg_popReturn, readReg_pushReturn]
  · rw [setPc_flags, popReturn_flags, pushReturn_flags]

end Sys2Proof.Machine
end

section
/-! PUSH and POP (44_stack R127 to R129): what PUSH leaves in memory and in the host's events, what POP reads and writes,
where POP gives back what PUSH saved, and where a stack write lands on SP's own bytes. -/

namespace Sys2Proof.Machine

/-! ## PUSH's stack part (R127) -/

/-- The bytes after PUSH's three writes, the latest write to an address first (R127, R129). -/
theorem loadByte_pushByte {s : State} (hm : s.mem.wf = true) (a : Addr) (v : Byte) :
    loadByte a (pushByte v s) =
      if a = spRead s - 1#16 then v
      else if a = Config.spLoAddr then loByte (spRead s - 1#16)
      else if a = Config.spHiAddr then hiByte (spRead s - 1#16)
      else loadByte a s := by
  rw [pushByte_eq, loadByte_memWrite (spWrite_wf hm _), loadByte_spWrite hm]

/-- The write of the pushed byte is PUSH's only event (R45, R47). -/
theorem pushByte_ioEvents {s : State} (hm : s.mem.wf = true) (v : Byte) :
    (pushByte v s).ioEvents = s.ioEvents ++ eventsOf (spRead s - 1#16) v s := by
  rw [pushByte_eq, (storesOnly_memWrite (spWrite_wf hm _) _ _).events, spWrite_ioEvents,
    eventsOf_congr (spWrite_ioIntercept _ _)]

/-- Settles O48: PUSH is its stack part, which the laws above describe. -/
theorem pushStores : Obligations.PushStores := by
  intro s r hm
  have hpush : exec (.push r) s = .next (pushByte (readReg r s) s) := rfl
  exact ⟨encodesAs_encode (.push r), rejectsId_first (o := .push) rfl rfl, _, hpush,
    fun a => loadByte_pushByte hm a _, pushByte_ioEvents hm _, fun q => readReg_pushByte q _ s, pushByte_pc _ s,
    pushByte_flags _ s, pushByte_ioDraws _ s,
    ⟨pushByte_image _ s, pushByte_ready _ s, pushByte_ioIntercept _ s⟩⟩

/-! ## POP (R128) -/

theorem spRead_writeReg (r : Reg) (v : Byte) (s : State) : spRead (writeReg r v s) = spRead s :=
  spRead_of_mem_eq (writeReg_mem r v s)

theorem spRead_popByte {s : State} (hm : s.mem.wf = true) : spRead (popByte s).2 = spRead s + 1#16 := by
  rw [popByte_eq]
  exact spRead_spWrite (by rw [memRead_mem]; exact hm) _

theorem popByte_keepsBytesBut (s : State) : KeepsBytesBut [Config.spHiAddr, Config.spLoAddr] s (popByte s).2 := by
  intro a ha
  rw [popByte_eq, spWrite_keepsBytesBut _ _ a ha, loadByte_memRead]

/-- Settles O49: POP is its stack part, of whose effects only SPWrite reaches memory, and then one register write. -/
theorem popLoads : Obligations.PopLoads := by
  intro s r hm
  have hpop : exec (.pop r) s = .next (writeReg r (popByte s).1 (popByte s).2) := rfl
  have hw := writesOnlyReg_writeReg r (popByte s).1 (popByte s).2
  refine ⟨encodesAs_encode (.pop r), rejectsId_first (o := .pop) rfl rfl, _, hpop, hw.value, ?_, fun a ha => ?_,
    fun q hq => ?_, ⟨hw.io.ioDraws, hw.io.ioEvents⟩, ?_, ?_,
    ⟨hw.platform.image.trans (popByte_image s), hw.platform.ready.trans (popByte_ready s),
      hw.platform.ioIntercept.trans (popByte_ioIntercept s)⟩⟩
  · rw [spRead_writeReg, spRead_popByte hm]
  · rw [hw.bytes, popByte_keepsBytesBut s a ha]
  · rw [hw.others q hq, readReg_popByte]
  · rw [hw.pc, popByte_pc]
  · rw [hw.flags, popByte_flags]

/-! ## SP after a stack write, which may land on SP itself (R129) -/

/-- SP after PUSH: the pushed byte where it lands on a byte of SP, and SP - 1 elsewhere. -/
theorem spRead_pushByte {s : State} (hm : s.mem.wf = true) (v : Byte) :
    spRead (pushByte v s) =
      bytePair (if Config.spHiAddr = spRead s - 1#16 then v else hiByte (spRead s - 1#16))
        (if Config.spLoAddr = spRead s - 1#16 then v else loByte (spRead s - 1#16)) := by
  have hne : Config.spHiAddr ≠ Config.spLoAddr := by decide
  rw [spRead, loadByte_pushByte hm, loadByte_pushByte hm, if_neg hne, if_pos rfl, if_pos rfl]

/-- SP after CALL's stack part: a byte of the return address where it lands on a byte of SP, and SP - 2 elsewhere. -/
theorem spRead_pushReturn_eq {s : State} (hm : s.mem.wf = true) (ret : Addr) :
    spRead (pushReturn ret s) =
      bytePair
        (if Config.spHiAddr = spRead s - 1#16 then loByte ret
          else if Config.spHiAddr = spRead s - 2#16 then hiByte ret else hiByte (spRead s - 2#16))
        (if Config.spLoAddr = spRead s - 1#16 then loByte ret
          else if Config.spLoAddr = spRead s - 2#16 then hiByte ret else loByte (spRead s - 2#16)) := by
  have hne : Config.spHiAddr ≠ Config.spLoAddr := by decide
  rw [spRead, loadByte_pushReturn hm, loadByte_pushReturn hm, if_neg hne, if_pos rfl, if_pos rfl]

/-- Settles O50: the laws above at the given values of SP, where each comparison of addresses is decided by computing. -/
theorem stackWritesOnSp : Obligations.StackWritesOnSp := by
  intro s r tgt hm
  have hpush : exec (.push r) s = .next (pushByte (readReg r s) s) := rfl
  have hcall : exec (.call tgt) s = .next (setPc tgt (pushReturn s.pc s)) := rfl
  refine ⟨fun hsp => ⟨_, hpush, ?_⟩, fun hsp => ⟨_, hpush, ?_⟩, fun hsp => ⟨_, hcall, ?_⟩,
    fun hsp => ⟨_, hcall, ?_⟩, fun hsp => ⟨_, hcall, ?_⟩⟩
  · rw [spRead_pushByte hm, hsp]
    rfl
  · rw [spRead_pushByte hm, hsp]
    rfl
  · rw [spRead_setPc, spRead_pushReturn_eq hm, hsp]
    rfl
  · rw [spRead_setPc, spRead_pushReturn_eq hm, hsp]
    exact bytePair_hiByte_loByte s.pc
  · rw [spRead_setPc, spRead_pushReturn_eq hm, hsp]
    rfl

/-! ## PUSH and then POP (R129) -/

/-- PUSH leaves SP - 1 in SP unless its byte lands on SP's own bytes, which is so at two values of SP (R129). -/
theorem spRead_pushByte_sub_one {s : State} (hm : s.mem.wf = true) (h1 : spRead s ≠ 0x0FF1#16)
    (h2 : spRead s ≠ 0x0FF2#16) (v : Byte) : spRead (pushByte v s) = spRead s - 1#16 := by
  have hhi : spRead s - 1#16 ≠ Config.spHiAddr := mt BitVec.sub_eq_iff_eq_add.mp h1
  have hlo : spRead s - 1#16 ≠ Config.spLoAddr := mt BitVec.sub_eq_iff_eq_add.mp h2
  rw [spRead_pushByte hm, if_neg hhi.symm, if_neg hlo.symm, bytePair_hiByte_loByte]

/-- The byte MemRead answers at PUSH's new SP is the one pushed, where the host does not intercept it. -/
theorem memRead_pushByte_top {s : State} (hm : s.mem.wf = true) (hint : intercepted (spRead s - 1#16) s = false)
    (v : Byte) : (memRead (spRead s - 1#16) (pushByte v s)).1 = v := by
  rw [memRead_plain ((intercepted_congr (pushByte_ioIntercept v s) _).trans hint), loadByte_pushByte hm, if_pos rfl]

/-- Settles O51: whatever pc is between them, POP reads at the SP that PUSH left, and adds the 1 that PUSH subtracted. -/
theorem pushPopRoundTrip : Obligations.PushPopRoundTrip := by
  intro s r r2 pc hm h1 h2 hint
  have hpush : exec (.push r) s = .next (pushByte (readReg r s) s) := rfl
  have hsp : spRead (pushByte (readReg r s) s) = spRead s - 1#16 := spRead_pushByte_sub_one hm h1 h2 _
  obtain ⟨-, -, u, hpop, hvalue, hspu, -, hregs, -, -, hflags, -⟩ :=
    popLoads (setPc pc (pushByte (readReg r s) s)) r2 (pushByte_wf hm _)
  refine ⟨_, u, hpush, hpop, ?_, ?_, fun q hq => ?_, ?_⟩
  · rw [hspu, spRead_setPc, hsp, BitVec.sub_add_cancel]
  · rw [hvalue, spRead_setPc, hsp, memRead_setPc, memRead_pushByte_top hm hint]
  · rw [hregs q hq, readReg_setPc, readReg_pushByte]
  · rw [hflags, setPc_flags, pushByte_flags]

end Sys2Proof.Machine
end

section
/-! NOP (45_nop R130): what its one byte encodes, and that executing it answers the state it is given. -/

namespace Sys2Proof.Machine

/-- With pc already at next, NOP has nothing left to do (R130). -/
theorem exec_nop (s : State) : exec .nop s = .next s := rfl

/-- Settles O53: the byte is what the encoder writes for NOP, and NOP's execution hands the state on. -/
theorem nopChangesNothing : Obligations.NopChangesNothing :=
  fun s => ⟨encodesAs_encode .nop, exec_nop s⟩

end Sys2Proof.Machine
end

section
/-! No instruction faults when it executes, and none reaches the image, the ready mark or the parameter (60_exceptions R141;
10_state R30, 70_reset R162): the frames of the shared operations, put together instruction by instruction. -/

namespace Sys2Proof.Machine

/-! ## The shared operations -/

theorem KeepsPlatform.refl (s : State) : KeepsPlatform s s := ⟨rfl, rfl, rfl⟩

theorem KeepsPlatform.trans {s t u : State} (hst : KeepsPlatform s t) (htu : KeepsPlatform t u) : KeepsPlatform s u :=
  ⟨htu.image.trans hst.image, htu.ready.trans hst.ready, htu.ioIntercept.trans hst.ioIntercept⟩

theorem keepsPlatform_setPc (tgt : Addr) (s : State) : KeepsPlatform s (setPc tgt s) := ⟨rfl, rfl, rfl⟩

theorem keepsPlatform_writeReg (r : Reg) (v : Byte) (s : State) : KeepsPlatform s (writeReg r v s) :=
  (writesOnlyReg_writeReg r v s).platform

theorem keepsPlatform_memRead (a : Addr) (s : State) : KeepsPlatform s (memRead a s).2 :=
  ⟨memRead_image a s, memRead_ready a s, memRead_ioIntercept a s⟩

theorem keepsPlatform_memWrite (a : Addr) (v : Byte) (s : State) : KeepsPlatform s (memWrite a v s) :=
  ⟨memWrite_image a v s, memWrite_ready a v s, memWrite_ioIntercept a v s⟩

theorem keepsPlatform_addToA (n : Byte) (s : State) : KeepsPlatform s (addToA n s) := (addsToA_addToA n s).platform

theorem keepsPlatform_subFromA (n : Byte) (s : State) : KeepsPlatform s (subFromA n s) :=
  (subtractsFromA_subFromA n s).platform

theorem keepsPlatform_compareA (n : Byte) (s : State) : KeepsPlatform s (compareA n s) :=
  (comparesA_compareA n s).platform

theorem keepsPlatform_jumpIf (cond : Bool) (tgt : Addr) (s : State) : KeepsPlatform s (jumpIf cond tgt s) :=
  (jumpsIf_jumpIf cond tgt s).platform

theorem keepsPlatform_pushByte (v : Byte) (s : State) : KeepsPlatform s (pushByte v s) :=
  ⟨pushByte_image v s, pushByte_ready v s, pushByte_ioIntercept v s⟩

theorem keepsPlatform_popByte (s : State) : KeepsPlatform s (popByte s).2 :=
  ⟨popByte_image s, popByte_ready s, popByte_ioIntercept s⟩

theorem keepsPlatform_pushReturn (ret : Addr) (s : State) : KeepsPlatform s (pushReturn ret s) :=
  ⟨pushReturn_image ret s, pushReturn_ready ret s, pushReturn_ioIntercept ret s⟩

theorem keepsPlatform_popReturn (s : State) : KeepsPlatform s (popReturn s).2 :=
  ⟨popReturn_image s, popReturn_ready s, popReturn_ioIntercept s⟩

/-! ## The instructions -/

/-- Settles O19: every arm answers a next state, which its shared operations reach from s one after another; a form that
reads memory for its operand has that MemRead before the rest. -/
theorem executionNeverFaults : Obligations.ExecutionNeverFaults := by
  intro i s
  cases i with
  | nop => exact ⟨_, rfl, .refl s⟩
  | ldReg r _ | ldImm r _ => exact ⟨_, rfl, keepsPlatform_writeReg r _ s⟩
  | ldInd r _ | ldIdx r _ => exact ⟨_, rfl, (keepsPlatform_memRead _ s).trans (keepsPlatform_writeReg r _ _)⟩
  | stReg _ r2 => exact ⟨_, rfl, keepsPlatform_writeReg r2 _ s⟩
  | stInd _ _ | stIdx _ _ => exact ⟨_, rfl, keepsPlatform_memWrite _ _ s⟩
  | addReg _ | addImm _ | inc => exact ⟨_, rfl, keepsPlatform_addToA _ s⟩
  | addInd _ | addIdx _ => exact ⟨_, rfl, (keepsPlatform_memRead _ s).trans (keepsPlatform_addToA _ _)⟩
  | subReg _ | subImm _ | dec => exact ⟨_, rfl, keepsPlatform_subFromA _ s⟩
  | subInd _ | subIdx _ => exact ⟨_, rfl, (keepsPlatform_memRead _ s).trans (keepsPlatform_subFromA _ _)⟩
  | cmpReg _ | cmpImm _ => exact ⟨_, rfl, keepsPlatform_compareA _ s⟩
  | cmpInd _ | cmpIdx _ => exact ⟨_, rfl, (keepsPlatform_memRead _ s).trans (keepsPlatform_compareA _ _)⟩
  | jmp tgt => exact ⟨_, rfl, keepsPlatform_setPc tgt s⟩
  | jc tgt | jnc tgt | jp tgt | jnp tgt | jz tgt | jnz tgt | js tgt | jns tgt =>
    exact ⟨_, rfl, keepsPlatform_jumpIf _ tgt s⟩
  | call tgt => exact ⟨_, rfl, (keepsPlatform_pushReturn s.pc s).trans (keepsPlatform_setPc tgt _)⟩
  | ret => exact ⟨_, rfl, (keepsPlatform_popReturn s).trans (keepsPlatform_setPc _ _)⟩
  | push r => exact ⟨_, rfl, keepsPlatform_pushByte _ s⟩
  | pop r => exact ⟨_, rfl, (keepsPlatform_popByte s).trans (keepsPlatform_writeReg r _ _)⟩

end Sys2Proof.Machine
end

section
/-! What a step can do, said once (30_encoding R67, 60_exceptions R132, R140): the ready check, the bound check at its start,
and then the decoder's answer for the bytes at pc. -/

namespace Sys2Proof.Machine

/-! ## The bound check (R135, R137) -/

theorem fetchStop_at_end {s : State} (hL : s.image.length < 65536) (hpc : s.pc.toNat = s.image.length) :
    fetchStop s = some .endOfImage := by
  rw [fetchStop, if_pos ⟨hL, hpc.ge⟩, if_pos hpc]

theorem fetchStop_past_end {s : State} (hL : s.image.length < 65536) (hpc : s.image.length < s.pc.toNat) :
    fetchStop s = some (.fetchOutsideImage s.pc) := by
  rw [fetchStop, if_pos ⟨hL, hpc.le⟩, if_neg hpc.ne']

/-- Inside the image, and at any pc of a full one, the bound check passes (R19, R67). -/
theorem fetchStop_inside {s : State} (h : s.image.length = 65536 ∨ s.pc.toNat < s.image.length) : fetchStop s = none := by
  have hin : ¬(s.image.length < 65536 ∧ s.image.length ≤ s.pc.toNat) := by omega
  rw [fetchStop, if_neg hin]

/-! ## The step, by the outcome of its checks -/

theorem step_not_ready {s : State} (hr : s.ready = false) : step s = .refused .notReady := by
  simp [step, stepWith, hr]

section
variable {s : State} (hr : s.ready = true)
include hr

theorem step_of_fetchStop {f : Fault} (hf : fetchStop s = some f) : step s = .fault f := by
  simp only [step, stepWith, hr, if_true, hf]

theorem step_of_decode_error {e : DecodeError} (hf : fetchStop s = none) (hd : decode (fetchWindow s) = .error e) :
    step s = .fault (decodeFault s.pc e) := by
  rw [decode] at hd
  simp only [step, stepWith, hr, if_true, hf, hd]

theorem step_of_decode_ok {i : Instr} {rest : List Byte} (hf : fetchStop s = none)
    (hd : decode (fetchWindow s) = .ok (i, rest)) : step s = exec i (advancePast i s) := by
  rw [decode] at hd
  simp only [step, stepWith, hr, if_true, hf, hd]

/-- A ready step stops at the bound check, stops at what the decoder reports, or executes an instruction, which answers a
next state (R140, R141). -/
theorem step_cases :
    (∃ f, fetchStop s = some f ∧ step s = .fault f) ∨
    (∃ e, fetchStop s = none ∧ decode (fetchWindow s) = .error e ∧ step s = .fault (decodeFault s.pc e)) ∨
    ∃ i rest t, fetchStop s = none ∧ decode (fetchWindow s) = .ok (i, rest) ∧
      exec i (advancePast i s) = .next t ∧ step s = .next t := by
  cases hf : fetchStop s with
  | some f => exact .inl ⟨f, rfl, step_of_fetchStop hr hf⟩
  | none =>
    cases hd : decode (fetchWindow s) with
    | error e => exact .inr (.inl ⟨e, rfl, rfl, step_of_decode_error hr hf hd⟩)
    | ok d =>
      obtain ⟨t, ht, -⟩ := executionNeverFaults d.1 (advancePast d.1 s)
      exact .inr (.inr ⟨d.1, d.2, t, rfl, rfl, ht, (step_of_decode_ok hr hf hd).trans ht⟩)

/-- A ready step faults, EndOfImage included, or answers a next state; it is never refused (R132). -/
theorem step_fault_or_next : (∃ f, step s = .fault f) ∨ ∃ t, step s = .next t := by
  obtain ⟨f, -, hs⟩ | ⟨e, -, -, hs⟩ | ⟨_, _, t, -, -, -, hs⟩ := step_cases hr
  · exact .inl ⟨f, hs⟩
  · exact .inl ⟨_, hs⟩
  · exact .inr ⟨t, hs⟩

end

/-- What executes keeps the image, the ready mark and the parameter, and so does advancing pc before it (R30, R162). -/
theorem keepsPlatform_of_step {s t : State} (h : step s = .next t) : KeepsPlatform s t := by
  cases hr : s.ready with
  | false =>
    rw [step_not_ready hr] at h
    cases h
  | true =>
    obtain ⟨f, -, hs⟩ | ⟨e, -, -, hs⟩ | ⟨i, _, u, -, -, hu, hs⟩ := step_cases hr
    · cases hs.symm.trans h
    · cases hs.symm.trans h
    · obtain rfl : u = t := Host.Outcome.next.inj (hs.symm.trans h)
      obtain ⟨v, hv, hkeeps⟩ := executionNeverFaults i (advancePast i s)
      obtain rfl : u = v := Host.Outcome.next.inj (hu.symm.trans hv)
      exact (keepsPlatform_setPc _ s).trans hkeeps

end Sys2Proof.Machine
end

section
/-! The bytes a step fetches (10_state R19, 30_encoding R67): all of the code that lies at pc, and none from past the end of
an image that is not full. -/

namespace Sys2Proof.Machine

theorem instrByte_inside {s : State} {i : Nat} (h : s.image.length = 65536 ∨ s.pc.toNat + i < s.image.length) :
    instrByte i s = s.image[(s.pc.toNat + i) % 65536]? := by
  have hin : ¬(s.image.length < 65536 ∧ s.image.length ≤ s.pc.toNat + i) := by omega
  rw [instrByte, if_neg hin, codeRead]

theorem instrByte_outside {s : State} {i : Nat} (hL : s.image.length < 65536) (h : s.image.length ≤ s.pc.toNat + i) :
    instrByte i s = none := by
  rw [instrByte, if_pos ⟨hL, h⟩]

theorem instrBytesFrom_cons {s : State} {i n : Nat} {b : Byte} (h : instrByte i s = some b) :
    instrBytesFrom s i (n + 1) = b :: instrBytesFrom s (i + 1) n := by
  rw [instrBytesFrom, h]

/-- Bytes that stand one after another from byte i on are fetched in that order, before whatever follows them. -/
theorem instrBytesFrom_eq_append {s : State} {bytes : List Byte} : ∀ {i n : Nat}, bytes.length ≤ n →
    (∀ k, k < bytes.length → instrByte (i + k) s = bytes[k]?) →
    instrBytesFrom s i n = bytes ++ instrBytesFrom s (i + bytes.length) (n - bytes.length) := by
  induction bytes with
  | nil => intro i n _ _; rfl
  | cons b bytes ih =>
    intro i n hn hbytes
    obtain ⟨n, rfl⟩ : ∃ m, n = m + 1 := Nat.exists_eq_add_one.mpr (Nat.zero_lt_of_lt hn)
    have hb : instrByte i s = some b := hbytes 0 (Nat.zero_lt_succ _)
    have htail : ∀ k, k < bytes.length → instrByte (i + 1 + k) s = bytes[k]? := by
      intro k hk
      rw [Nat.add_assoc, Nat.add_comm 1 k, hbytes (k + 1) (Nat.succ_lt_succ hk), List.getElem?_cons_succ]
    rw [instrBytesFrom_cons hb, ih (Nat.le_of_succ_le_succ hn) htail, List.length_cons, List.cons_append,
      Nat.add_sub_add_right, Nat.add_assoc, Nat.add_comm 1]

/-- Where the image is not full, no more bytes are fetched than it holds from byte i on (R136). -/
theorem length_instrBytesFrom_le {s : State} (hL : s.image.length < 65536) (n : Nat) : ∀ i,
    (instrBytesFrom s i n).length ≤ s.image.length - (s.pc.toNat + i) := by
  induction n with
  | zero => intro i; exact Nat.zero_le _
  | succ n ih =>
    intro i
    rw [instrBytesFrom]
    split
    · exact Nat.zero_le _
    · next b hb =>
      have hin : s.pc.toNat + i < s.image.length := by
        by_contra hout
        rw [instrByte_outside hL (Nat.le_of_not_lt hout)] at hb
        cases hb
      have htail := ih (i + 1)
      rw [List.length_cons]
      omega

/-- The byte at pc, alone, is code at pc. -/
theorem codeAt_singleton {s : State} {b : Byte} (h : s.image[s.pc.toNat]? = some b) : CodeAt s [b] where
  inside := .inr (List.getElem?_eq_some_iff.mp h).1
  bytes k hk := by
    obtain rfl : k = 0 := Nat.lt_one_iff.mp hk
    rw [Nat.add_zero, Nat.mod_eq_of_lt s.pc.isLt, h]
    rfl

/-- In a full image there is a byte at every pc (R19). -/
theorem exists_codeAt_of_full {s : State} (hL : s.image.length = 65536) : ∃ b, CodeAt s [b] :=
  ⟨_, codeAt_singleton (List.getElem?_eq_getElem (hL ▸ s.pc.isLt))⟩

theorem fetchStop_of_codeAt {s : State} {b : Byte} {bytes : List Byte} (hc : CodeAt s (b :: bytes)) :
    fetchStop s = none := by
  refine fetchStop_inside (hc.inside.imp id fun h => ?_)
  rw [List.length_cons] at h
  omega

/-- Code at pc of an instruction's length at most is fetched whole (R57: 4 bytes at most). -/
theorem fetchWindow_of_codeAt {s : State} {bytes : List Byte} (hc : CodeAt s bytes) (hlen : bytes.length ≤ 4) :
    fetchWindow s = bytes ++ instrBytesFrom s bytes.length (4 - bytes.length) := by
  have hbytes : ∀ k, k < bytes.length → instrByte (0 + k) s = bytes[k]? := by
    intro k hk
    rw [Nat.zero_add, instrByte_inside (hc.inside.imp id fun h => by omega), hc.bytes k hk]
  rw [fetchWindow, instrBytesFrom_eq_append hlen hbytes, Nat.zero_add]

theorem fetchWindow_cons {s : State} {b : Byte} (hc : CodeAt s [b]) : fetchWindow s = b :: instrBytesFrom s 1 3 :=
  fetchWindow_of_codeAt hc (Nat.le_add_left 1 3)

end Sys2Proof.Machine
end

section
/-! EndOfImage and the four faults (60_exceptions R133 to R137), each from what the image holds at pc. -/

namespace Sys2Proof.Machine

/-! ## The bounds (R135, R137) -/

theorem decodeWith_cons_ne_noBytes (m : CodeMap) (b : Byte) (bytes : List Byte) :
    decodeWith m (b :: bytes) ≠ .error .noBytes := by
  rw [decodeWith]
  split
  · nofun
  · intro h
    obtain he | ⟨x, he⟩ := decodeOperands_error h
    · cases he
    · cases he

/-- Where there is a byte at pc, a ready step is not stopped by the image's end: the bound check passes, and the decoder has
an opcode byte to report on. -/
theorem step_ne_bounds_of_codeAt {s : State} {b : Byte} (hr : s.ready = true) (hc : CodeAt s [b]) :
    step s ≠ .fault (.fetchOutsideImage s.pc) ∧ step s ≠ .fault .endOfImage := by
  have hnone : fetchStop s = none := fetchStop_of_codeAt hc
  obtain ⟨f, hf, -⟩ | ⟨e, -, hd, hs⟩ | ⟨_, _, t, -, -, -, hs⟩ := step_cases hr
  · cases hnone.symm.trans hf
  · rw [fetchWindow_cons hc] at hd
    rw [hs]
    cases e with
    | noBytes => exact absurd hd (decodeWith_cons_ne_noBytes _ b _)
    | invalidOpcode x | truncated x | invalidRegister x => exact ⟨nofun, nofun⟩
  · rw [hs]
    exact ⟨nofun, nofun⟩

/-- Settles O11: below 65536 the bound check answers at pc = L and past it; a full image has a byte at every pc. -/
theorem pastTheImageEnd : Obligations.PastTheImageEnd := by
  refine ⟨rfl, fun s hr => ⟨fun hL hpc => ?_, fun hL hpc => ?_, fun hL => ?_⟩⟩
  · exact step_of_fetchStop hr (fetchStop_at_end hL hpc)
  · exact step_of_fetchStop hr (fetchStop_past_end hL hpc)
  · obtain ⟨b, hc⟩ := exists_codeAt_of_full hL
    exact step_ne_bounds_of_codeAt hr hc

/-! ## The opcode byte (R133) -/

/-- Settles O12: the decoder meets the unassigned byte first, whatever is fetched after it. -/
theorem invalidOpcodeFault : Obligations.InvalidOpcodeFault := by
  intro s b hr _ hc hb
  have hd : decode (fetchWindow s) = .error (.invalidOpcode b) := by
    rw [fetchWindow_cons hc]
    exact (unassignedOpcodesAreRejected b _).mpr hb
  exact step_of_decode_error hr (fetchStop_of_codeAt hc) hd

/-! ## Missing operand bytes (R136) -/

/-- Len is the length of the row's format (R60, R63). -/
theorem len_eq_format_length (o : Op) : o.len = o.format.length := by
  cases o <;> rfl

/-- Settles O13: the opcode byte is fetched, and fewer operand bytes than its row has. -/
theorem truncatedInstructionFault : Obligations.TruncatedInstructionFault := by
  intro s op hr hL hbyte hlen
  have hc : CodeAt s [opcodeByte op] := codeAt_singleton hbyte
  have hshort : (instrBytesFrom s 1 3).length + 1 < op.format.length := by
    have hle := length_instrBytesFrom_le hL 3 1
    have hpc : s.pc.toNat < s.image.length := (List.getElem?_eq_some_iff.mp hbyte).1
    rw [← len_eq_format_length]
    omega
  have hd : decode (fetchWindow s) = .error (.truncated (opcodeByte op)) := by
    rw [fetchWindow_cons hc]
    exact (decodeWith_opcode_cons CodeMap.standard_wf op _).trans (decodeOperands_of_length_lt hshort)
  exact step_of_decode_error hr (fetchStop_of_codeAt hc) hd

/-! ## Bad register ids (R134) -/

/-- A byte above 0x04, which is no register id (R59). -/
abbrev isBadRegId (b : Byte) : Bool := decide (4 < b.toNat)

/-- A byte below 5 is the id of a register (R59). -/
theorem exists_regIdByte_eq {b : Byte} (hb : b.toNat < 5) : ∃ r, regIdByte r = b := by
  have hid : ∀ n, n < 5 → ∃ r, (regIdByte r).toNat = n := by
    intro n hn
    interval_cases n
    exacts [⟨.A, rfl⟩, ⟨.B, rfl⟩, ⟨.C, rfl⟩, ⟨.X, rfl⟩, ⟨.Y, rfl⟩]
  obtain ⟨r, hr⟩ := hid b.toNat hb
  exact ⟨r, BitVec.eq_of_toNat_eq hr⟩

/-- A register field, and the register fields after it: the first bad byte of all is reported when the fields after this one
report the first bad byte of theirs. -/
theorem withReg_of_find?_isBadRegId {b bad : Byte} {bs : List Byte} {k : Reg → Decoded}
    (h : (b :: bs).find? isBadRegId = some bad)
    (hk : bs.find? isBadRegId = some bad → ∀ r, k r = .error (.invalidRegister bad)) :
    withReg CodeMap.standard b k = .error (.invalidRegister bad) := by
  by_cases hb : 4 < b.toNat
  · rw [List.find?_cons_of_pos (p := isBadRegId) (decide_eq_true hb)] at h
    obtain rfl : b = bad := Option.some.inj h
    exact withReg_of_regOfByte_eq_none (regOfByte_standard_eq_none hb) k
  · rw [List.find?_cons_of_neg (p := isBadRegId) (by simpa using hb)] at h
    obtain ⟨r, rfl⟩ := exists_regIdByte_eq (Nat.lt_succ_of_le (Nat.le_of_not_lt hb))
    exact (withReg_regId CodeMap.standard_wf r k).trans (hk h r)

/-- With all its operand bytes there, a row reports the first bad byte of its register fields (R134). -/
theorem decodeOperands_of_find?_isBadRegId {c bad : Byte} {o : Op} {operands : List Byte} (rest : List Byte)
    (hlen : operands.length + 1 = o.len) (hbad : (regFieldBytes o operands).find? isBadRegId = some bad) :
    decodeOperands CodeMap.standard c o (operands ++ rest) = .error (.invalidRegister bad) := by
  cases o with
  | addReg | subReg | cmpReg | push | pop =>
    match operands, hlen with
    | [_], _ => exact withReg_of_find?_isBadRegId hbad nofun
  | ldImm | ldIdx | stIdx =>
    match operands, hlen with
    | [_, _], _ => exact withReg_of_find?_isBadRegId hbad nofun
  | ldInd | stInd =>
    match operands, hlen with
    | [_, _, _], _ => exact withReg_of_find?_isBadRegId hbad nofun
  | ldReg | stReg =>
    match operands, hlen with
    | [_, _], _ =>
      exact withReg_of_find?_isBadRegId hbad fun hbad2 _ => withReg_of_find?_isBadRegId hbad2 nofun
  | _ => cases hbad

/-- Settles O14: the whole instruction is fetched, and its row reports the first bad byte of its register fields. -/
theorem invalidRegisterFault : Obligations.InvalidRegisterFault := by
  intro s op operands bad hr _ hlen hc hbad
  have hle : op.len ≤ 4 := by cases op <;> decide
  have hd : decode (fetchWindow s) = .error (.invalidRegister bad) := by
    rw [fetchWindow_of_codeAt hc (hlen.le.trans hle)]
    exact (decodeWith_opcode_cons CodeMap.standard_wf op _).trans (decodeOperands_of_find?_isBadRegId _ hlen hbad)
  exact step_of_decode_error hr (fetchStop_of_codeAt hc) hd

end Sys2Proof.Machine
end

section
/-! The host port: run, memory access, the snapshot and the status byte (60_exceptions R155 to R158, 10_state R25). -/

namespace Sys2Proof.Machine

/-! ## Run (R155) -/

theorem runLoop_of_next {n k : Nat} {s t : State} (h : step s = .next t) : runLoop (n + 1) k s = runLoop n (k + 1) t := by
  rw [runLoop, h]

theorem runLoop_of_fault {n k : Nat} {s : State} {f : Fault} (h : step s = .fault f) :
    runLoop (n + 1) k s = .ok ⟨k, some f, s⟩ := by
  rw [runLoop, h]

/-- What run's loop leaves of a ready machine, given n steps: the state after the j ≤ n steps that returned Ok, and an
outcome, that of the step after them, exactly where j is short of n. -/
theorem runLoop_of_ready {n : Nat} : ∀ {k : Nat} {s : State}, s.ready = true →
    ∃ j stop t, runLoop n k s = .ok ⟨k + j, stop, t⟩ ∧ StepsTo j s t ∧ j ≤ n ∧ (stop = none ↔ j = n) ∧
      ∀ f, stop = some f → step t = .fault f := by
  induction n with
  | zero =>
    intro k s _
    exact ⟨0, none, s, rfl, rfl, le_rfl, by simp, nofun⟩
  | succ n ih =>
    intro k s hr
    obtain ⟨f, hs⟩ | ⟨u, hs⟩ := step_fault_or_next hr
    · refine ⟨0, some f, s, runLoop_of_fault hs, rfl, Nat.zero_le _, by simp, fun g hg => ?_⟩
      rw [hs, Option.some.inj hg]
    · obtain ⟨j, stop, t, hrun, hsteps, hle, hnone, hstop⟩ :=
        ih (k := k + 1) ((keepsPlatform_of_step hs).ready.trans hr)
      refine ⟨j + 1, stop, t, ?_, ⟨u, hs, hsteps⟩, Nat.succ_le_succ hle, hnone.trans Nat.succ_inj.symm, hstop⟩
      rw [runLoop_of_next hs, hrun, Nat.add_right_comm, Nat.add_assoc]

theorem portRun_of_ready {s : State} (hr : s.ready = true) (n : Nat) : portRun n s = runLoop n 0 s := by
  rw [portRun, if_pos hr]

/-- Settles O27: run is its loop with nothing counted yet. -/
theorem runCountsExecutedInstructions : Obligations.RunCountsExecutedInstructions := by
  intro n s hr
  obtain ⟨j, stop, t, hrun, hsteps, hle, hnone, hstop⟩ := runLoop_of_ready (n := n) (k := 0) hr
  rw [Nat.zero_add] at hrun
  exact ⟨portRun_of_ready hr 0, _, (portRun_of_ready hr n).trans hrun, hsteps, hle, hnone, hstop⟩

/-! ## Memory (R156, R157) -/

/-- Settles O28: readMem is a plain load and writeMem a plain store, which touches memory alone. -/
theorem hostMemoryAccess : Obligations.HostMemoryAccess := by
  intro s a v hm
  exact ⟨rfl, loadByte_storeByte_same hm a v, fun b hb => loadByte_storeByte_other hb v s,
    fun q => readReg_storeByte q a v s, storeByte_pc a v s, storeByte_flags a v s,
    ⟨storeByte_image a v s, storeByte_ready a v s, storeByte_ioIntercept a v s⟩,
    ⟨storeByte_ioDraws a v s, storeByte_ioEvents a v s⟩⟩

/-! ## The snapshot and the status byte (R158, R25) -/

/-- The bits of the status byte, over the sixteen values of the flags (R25). -/
theorem flagsByte_bits : ∀ c p z s : Bool,
    (flagsByte ⟨c, p, z, s⟩).getLsbD 0 = c ∧ (flagsByte ⟨c, p, z, s⟩).getLsbD 1 = p ∧
    (flagsByte ⟨c, p, z, s⟩).getLsbD 2 = z ∧ (flagsByte ⟨c, p, z, s⟩).getLsbD 3 = s ∧
    (flagsByte ⟨c, p, z, s⟩).toNat < 16 := by
  decide

/-- Settles O29: the snapshot is the state's own fields, and the status byte has one bit for each flag. -/
theorem snapshotAndStatusByte : Obligations.SnapshotAndStatusByte :=
  fun s => ⟨rfl, flagsByte_bits s.flags.c s.flags.p s.flags.z s.flags.s⟩

end Sys2Proof.Machine
end

section
/-! What no step reaches, and what a reset leaves (70_reset_and_hazards R161, R163, R170). -/

namespace Sys2Proof.Machine

/-! ## The image (R170) -/

/-- Settles O24: a step that answers a next state is an advance of pc and an execution, and both keep the platform. -/
theorem noStepReachesTheImage : Obligations.NoStepReachesTheImage :=
  fun _ _ h => keepsPlatform_of_step h

/-! ## Reset (R161, R163) -/

/-- The zeroed memory: nothing is listed, so every address reads as an unlisted one. -/
@[simp] theorem loadByte_portReset (a : Addr) (d : RegDraws) (s : State) : loadByte a (portReset d s) = 0x00#8 := rfl

/-- SP lives in memory, so zeroed memory zeroes it (R26, R29). -/
@[simp] theorem spRead_portReset (d : RegDraws) (s : State) : spRead (portReset d s) = 0x0000#16 := by
  rw [spRead, loadByte_portReset, loadByte_portReset]
  decide

/-- Settles O25: memory and SP by what the zeroed memory reads as; the other fields are the ones reset writes or keeps. -/
theorem resetOperation : Obligations.ResetOperation :=
  fun d s => ⟨rfl, fun a => loadByte_portReset a d s, spRead_portReset d s, rfl, rfl, rfl, rfl, rfl, rfl, rfl, rfl⟩

end Sys2Proof.Machine
end

section
/-! What an instruction may do, said once: its meaning is a chain of the six shared operations, in which pc, the flags, a
register or a byte of memory is written only where the instruction's own tables (setsPc, writesFlags, destRegs, storedAt)
have it. Every frame over all instructions, and the invariant, is then one induction over such a chain (10_state R14, R18,
R22; 20_memory R44). -/

namespace Sys2Proof.Machine

/-! ## Chains of shared operations -/

/-- The state is reached from s by shared operations one after another: reads, register writes to regs, memory writes to
stored, and, where pc and flags say so, settings of pc and of the flags. -/
inductive ReachedBy (pc flags : Bool) (regs : List Reg) (stored : List Addr) (s : State) : State → Prop
  | refl : ReachedBy pc flags regs stored s s
  | thenSetPc {t : State} (tgt : Addr) (allowed : pc = true) (before : ReachedBy pc flags regs stored s t) :
      ReachedBy pc flags regs stored s (setPc tgt t)
  | thenSetFlags {t : State} (f : Flags) (allowed : flags = true) (before : ReachedBy pc flags regs stored s t) :
      ReachedBy pc flags regs stored s (setFlags f t)
  | thenWriteReg {t : State} (r : Reg) (v : Byte) (allowed : r ∈ regs) (before : ReachedBy pc flags regs stored s t) :
      ReachedBy pc flags regs stored s (writeReg r v t)
  | thenMemRead {t : State} (a : Addr) (before : ReachedBy pc flags regs stored s t) :
      ReachedBy pc flags regs stored s (memRead a t).2
  | thenMemWrite {t : State} (a : Addr) (v : Byte) (allowed : a ∈ stored)
      (before : ReachedBy pc flags regs stored s t) : ReachedBy pc flags regs stored s (memWrite a v t)

section
variable {pc flags : Bool} {regs : List Reg} {stored : List Addr} {s t : State}

theorem ReachedBy.thenAddToA (n : Byte) (hf : flags = true) (hA : .A ∈ regs)
    (h : ReachedBy pc flags regs stored s t) : ReachedBy pc flags regs stored s (addToA n t) := by
  rw [addToA_eq]
  exact .thenSetFlags _ hf (.thenWriteReg .A _ hA h)

theorem ReachedBy.thenSubFromA (n : Byte) (hf : flags = true) (hA : .A ∈ regs)
    (h : ReachedBy pc flags regs stored s t) : ReachedBy pc flags regs stored s (subFromA n t) := by
  rw [subFromA_eq]
  exact .thenSetFlags _ hf (.thenWriteReg .A _ hA h)

theorem ReachedBy.thenJumpIf (cond : Bool) (tgt : Addr) (hp : pc = true)
    (h : ReachedBy pc flags regs stored s t) : ReachedBy pc flags regs stored s (jumpIf cond tgt t) := by
  rw [jumpIf_eq]
  exact .thenSetPc _ hp h

theorem ReachedBy.thenSpWrite (v : Addr) (hhi : Config.spHiAddr ∈ stored) (hlo : Config.spLoAddr ∈ stored)
    (h : ReachedBy pc flags regs stored s t) : ReachedBy pc flags regs stored s (spWrite v t) := by
  rw [spWrite_eq_memWrite]
  exact .thenMemWrite _ _ hlo (.thenMemWrite _ _ hhi h)

end

/-- An instruction's meaning is a chain of shared operations that its tables allow (R14, R18, R22, R44). -/
theorem reachedBy_of_exec {i : Instr} {s t : State} (h : exec i s = .next t) :
    ReachedBy (setsPc i) (writesFlags i) (destRegs i) (storedAt i s) s t := by
  cases i with
  | nop =>
    cases h
    exact .refl
  | ldReg r _ | ldImm r _ =>
    cases h
    exact .thenWriteReg r _ (.head _) .refl
  | ldInd r _ | ldIdx r _ =>
    cases h
    exact .thenWriteReg r _ (.head _) (.thenMemRead _ .refl)
  | stReg _ r2 =>
    cases h
    exact .thenWriteReg r2 _ (.head _) .refl
  | stInd _ _ | stIdx _ _ =>
    cases h
    exact .thenMemWrite _ _ (.head _) .refl
  | addReg _ | addImm _ | inc =>
    cases h
    exact .thenAddToA _ rfl (.head _) .refl
  | addInd _ | addIdx _ =>
    cases h
    exact .thenAddToA _ rfl (.head _) (.thenMemRead _ .refl)
  | subReg _ | subImm _ | dec =>
    cases h
    exact .thenSubFromA _ rfl (.head _) .refl
  | subInd _ | subIdx _ =>
    cases h
    exact .thenSubFromA _ rfl (.head _) (.thenMemRead _ .refl)
  | cmpReg _ | cmpImm _ =>
    cases h
    exact .thenSetFlags _ rfl .refl
  | cmpInd _ | cmpIdx _ =>
    cases h
    exact .thenSetFlags _ rfl (.thenMemRead _ .refl)
  | jmp tgt =>
    cases h
    exact .thenSetPc tgt rfl .refl
  | jc tgt | jnc tgt | jp tgt | jnp tgt | jz tgt | jnz tgt | js tgt | jns tgt =>
    cases h
    exact .thenJumpIf _ tgt rfl .refl
  | call tgt =>
    cases h
    exact .thenSetPc tgt rfl (.thenMemWrite _ _ (by simp [storedAt]) (.thenMemWrite _ _ (by simp [storedAt])
      (.thenSpWrite _ (.head _) (.tail _ (.head _)) .refl)))
  | ret =>
    cases h
    exact .thenSetPc _ rfl (.thenSpWrite _ (.head _) (.tail _ (.head _)) (.thenMemRead _ (.thenMemRead _ .refl)))
  | push r =>
    cases h
    exact .thenMemWrite _ _ (by simp [storedAt]) (.thenSpWrite _ (.head _) (.tail _ (.head _)) .refl)
  | pop r =>
    cases h
    exact .thenWriteReg r _ (.head _) (.thenSpWrite _ (.head _) (.tail _ (.head _)) (.thenMemRead _ .refl))

/-! ## The frames over all instructions -/

section
variable {pc flags : Bool} {regs : List Reg} {stored : List Addr} {s t : State}

theorem ReachedBy.flags_eq (h : ReachedBy pc flags regs stored s t) (hf : flags = false) : t.flags = s.flags := by
  induction h with
  | refl => rfl
  | thenSetPc _ _ _ ih => exact ih
  | thenSetFlags _ allowed _ _ => cases hf.symm.trans allowed
  | thenWriteReg r v _ _ ih => rw [writeReg_flags, ih]
  | thenMemRead a _ ih => rw [memRead_flags, ih]
  | thenMemWrite a v _ _ ih => rw [memWrite_flags, ih]

theorem ReachedBy.pc_eq (h : ReachedBy pc flags regs stored s t) (hp : pc = false) : t.pc = s.pc := by
  induction h with
  | refl => rfl
  | thenSetPc _ allowed _ _ => cases hp.symm.trans allowed
  | thenSetFlags _ _ _ ih => exact ih
  | thenWriteReg r v _ _ ih => rw [writeReg_pc, ih]
  | thenMemRead a _ ih => rw [memRead_pc, ih]
  | thenMemWrite a v _ _ ih => rw [memWrite_pc, ih]

theorem ReachedBy.readReg_eq (h : ReachedBy pc flags regs stored s t) {q : Reg} (hq : q ∉ regs) :
    readReg q t = readReg q s := by
  induction h with
  | refl => rfl
  | thenSetPc _ _ _ ih => rw [readReg_setPc, ih]
  | thenSetFlags _ _ _ ih => rw [readReg_setFlags, ih]
  | thenWriteReg r v allowed _ ih => rw [readReg_writeReg_other (ne_of_mem_of_not_mem allowed hq).symm, ih]
  | thenMemRead a _ ih => rw [readReg_memRead, ih]
  | thenMemWrite a v _ _ ih => rw [readReg_memWrite, ih]

theorem ReachedBy.keepsBytesBut (h : ReachedBy pc flags regs stored s t) : KeepsBytesBut stored s t := by
  intro b hb
  induction h with
  | refl => rfl
  | thenSetPc _ _ _ ih => rw [loadByte_setPc, ih]
  | thenSetFlags _ _ _ ih => rw [loadByte_setFlags, ih]
  | thenWriteReg r v _ _ ih => rw [loadByte_writeReg, ih]
  | thenMemRead a _ ih => rw [loadByte_memRead, ih]
  | thenMemWrite a v allowed _ ih => rw [loadByte_memWrite_other (ne_of_mem_of_not_mem allowed hb).symm, ih]

end

/-- Settles O54: the chain of an instruction outside the five mnemonics sets no flags; one of the five answers the same state
whatever the flags were. -/
theorem flagsWrittenByFiveMnemonics : Obligations.FlagsWrittenByFiveMnemonics := by
  intro i s t ht
  refine ⟨(reachedBy_of_exec ht).flags_eq, fun hw f u hu => ?_⟩
  rw [exec_setFlags_of_writesFlags hw] at hu
  rw [Host.Outcome.next.inj (hu.symm.trans ht)]

/-- Settles O56: the chain of an instruction that is no jump, CALL or RET sets no pc. -/
theorem pcSetByControlFlowOnly : Obligations.PcSetByControlFlowOnly :=
  fun _ _ _ ht => (reachedBy_of_exec ht).pc_eq

/-- Settles O57: an instruction's chain writes no register outside destRegs. -/
theorem registersWritten : Obligations.RegistersWritten :=
  fun _ _ _ ht _ hq => (reachedBy_of_exec ht).readReg_eq hq

/-- Settles O58: an instruction's chain writes no byte outside storedAt. -/
theorem bytesWritten : Obligations.BytesWritten :=
  fun _ _ _ ht => (reachedBy_of_exec ht).keepsBytesBut

end Sys2Proof.Machine
end

section
/-! The invariant (10_state R29, R31; 20_memory R47): the shared operations keep it, so every instruction, every step and
every operation of the host does. -/

namespace Sys2Proof.Machine

/-! ## The shared operations -/

/-- The invariant speaks of memory, image and events alone. -/
theorem State.Inv.of_eq {s t : State} (h : s.Inv) (hm : t.mem = s.mem) (hi : t.image = s.image)
    (he : t.ioEvents = s.ioEvents) : t.Inv where
  memory := hm ▸ h.memory
  image := hi ▸ h.image
  events := he ▸ h.events

/-- The events MemWrite adds are at host-reserved I/O bytes (R47). -/
theorem isHostIo_of_mem_eventsOf {a : Addr} {v : Byte} {s : State} {e : IoEvent} (he : e ∈ eventsOf a v s) :
    isHostIo e.addr = true := by
  rw [eventsOf] at he
  split at he
  · next hint =>
    obtain rfl := List.mem_singleton.mp he
    exact (intercepted_iff.mp hint).2
  · cases he

theorem inv_memWrite {s : State} (h : s.Inv) (a : Addr) (v : Byte) : (memWrite a v s).Inv where
  memory := memWrite_wf h.memory a v
  image := (memWrite_image a v s).symm ▸ h.image
  events e he := by
    rw [(storesOnly_memWrite h.memory a v).events, List.mem_append] at he
    exact he.elim (h.events e) isHostIo_of_mem_eventsOf

theorem ReachedBy.inv {pc flags : Bool} {regs : List Reg} {stored : List Addr} {s t : State}
    (h : ReachedBy pc flags regs stored s t) (hs : s.Inv) : t.Inv := by
  induction h with
  | refl => exact hs
  | thenSetPc _ _ _ ih => exact ih.of_eq rfl rfl rfl
  | thenSetFlags _ _ _ ih => exact ih.of_eq rfl rfl rfl
  | thenWriteReg r v _ _ ih => exact ih.of_eq (writeReg_mem r v _) (writeReg_image r v _) (writeReg_ioEvents r v _)
  | thenMemRead a _ ih => exact ih.of_eq (memRead_mem a _) (memRead_image a _) (memRead_ioEvents a _)
  | thenMemWrite a v _ _ ih => exact inv_memWrite ih a v

/-! ## The step -/

/-- A step that answers a next state is an advance of pc and then an execution (R67). -/
theorem exec_of_step {s t : State} (h : step s = .next t) : ∃ i, exec i (advancePast i s) = .next t := by
  cases hr : s.ready with
  | false => cases (step_not_ready hr).symm.trans h
  | true =>
    obtain ⟨f, -, hs⟩ | ⟨e, -, -, hs⟩ | ⟨i, _, u, -, -, hu, hs⟩ := step_cases hr
    · cases hs.symm.trans h
    · cases hs.symm.trans h
    · exact ⟨i, hu.trans (hs.symm.trans h)⟩

/-- Settles O21: advancing pc leaves memory, image and events, and the instruction's chain keeps the invariant operation by
operation. -/
theorem stepKeepsInvariant : Obligations.StepKeepsInvariant := by
  intro s t hs h
  obtain ⟨i, hi⟩ := exec_of_step h
  have hadv : (advancePast i s).Inv := hs.of_eq rfl rfl rfl
  exact (reachedBy_of_exec hi).inv hadv

/-! ## The host's operations (R152, R155, R157, R161) -/

theorem inv_portReset {s : State} (himage : imageWf s.image = true)
    (hevents : ∀ e ∈ s.ioEvents, isHostIo e.addr = true) (d : RegDraws) : (portReset d s).Inv where
  memory := Memory.nil_wf
  image := himage
  events := hevents

/-- Settles O22: reset empties the memory list and leaves the image and the events; State.reset has none of either. -/
theorem resetHasInvariant : Obligations.ResetHasInvariant :=
  ⟨⟨Memory.nil_wf, rfl, nofun⟩, fun d _ himage hevents => inv_portReset himage hevents d⟩

/-- An accepted load: its bytes fit, and it sets the image and clears ready (R152). -/
theorem portLoad_next {bytes : List Byte} {s t : State} (h : portLoad bytes s = .next t) :
    imageWf bytes = true ∧ t = { s with image := bytes, ready := false } := by
  rw [portLoad] at h
  split at h
  · next hwf => exact ⟨hwf, (Host.Outcome.next.inj h).symm⟩
  · cases h

theorem inv_of_stepsTo {n : Nat} : ∀ {s t : State}, StepsTo n s t → s.Inv → t.Inv := by
  induction n with
  | zero => intro s t hst hs; exact hst ▸ hs
  | succ n ih =>
    intro s t ⟨u, hu, hut⟩ hs
    exact ih hut (stepKeepsInvariant s u hs hu)

/-- A run that is accepted leaves a state that steps lead to (R155). -/
theorem stepsTo_of_portRun {n : Nat} {s : State} {r : RunResult} (h : portRun n s = .ok r) :
    StepsTo r.count s r.state := by
  cases hr : s.ready with
  | false => simp [portRun, hr] at h
  | true =>
    obtain ⟨-, r', hrun, hsteps, -⟩ := runCountsExecutedInstructions n s hr
    obtain rfl : r = r' := Except.ok.inj (h.symm.trans hrun)
    exact hsteps

/-- Settles O23: a load, a reset and a memory write by the fields they set; a run by its steps. -/
theorem hostOperationsKeepInvariant : Obligations.HostOperationsKeepInvariant := by
  intro s hs
  refine ⟨fun bytes t h => ?_, inv_portReset hs.image hs.events, fun a v => ?_, fun n r h => ?_⟩
  · obtain ⟨hwf, rfl⟩ := portLoad_next h
    exact ⟨hs.memory, hwf, hs.events⟩
  · exact ⟨Memory.write_wf hs.memory a v, hs.image, hs.events⟩
  · exact inv_of_stepsTo (stepsTo_of_portRun h) hs

end Sys2Proof.Machine
end

section
/-! MemRead and MemWrite in numbers (20_memory R35, R36, R47): the host intercepts the bytes 0x0FF2 to 0x0FFF under oracle
and no others; and a store to a byte of SP (R40). -/

namespace Sys2Proof.Machine

theorem intercepted_eq_false {s : State} {a : Addr}
    (h : s.ioIntercept = .none ∨ a.toNat < 0x0FF2 ∨ 0x0FFF < a.toNat) : intercepted a s = false := by
  rw [Bool.eq_false_iff, ne_eq, intercepted_iff, isHostIo_iff]
  rintro ⟨horacle, hlo, hhi⟩
  obtain hnone | hlt | hgt := h
  · cases hnone.symm.trans horacle
  · exact absurd hlo (Nat.not_le.mpr hlt)
  · exact absurd hhi (Nat.not_le.mpr hgt)

theorem intercepted_eq_true {s : State} {a : Addr} (horacle : s.ioIntercept = .oracle) (hlo : 0x0FF2 ≤ a.toNat)
    (hhi : a.toNat ≤ 0x0FFF) : intercepted a s = true :=
  intercepted_iff.mpr ⟨horacle, isHostIo_iff.mpr ⟨hlo, hhi⟩⟩

/-- Settles O30: a read is the stored byte where it is not intercepted, and a counted draw where it is. -/
theorem byteReads : Obligations.ByteReads :=
  fun _ _ => ⟨fun h => memRead_plain (intercepted_eq_false h),
    fun horacle hlo hhi => memRead_drawn (intercepted_eq_true horacle hlo hhi)⟩

/-- Settles O31: MemWrite's own frame, with its event where the write is intercepted. -/
theorem byteWrites : Obligations.ByteWrites := by
  intro s a v hm
  have h : StoresOnly a v s (memWrite a v s) := storesOnly_memWrite hm a v
  refine ⟨h.stored, h.others, h.regs, h.pc, h.flags, h.platform, h.draws, fun hout => ?_, fun horacle hlo hhi => ?_⟩
  · rw [h.events, eventsOf, intercepted_eq_false hout]
    exact List.append_nil _
  · rw [h.events, eventsOf, intercepted_eq_true horacle hlo hhi]
    rfl

/-! ## Stores to SP's own bytes (R40) -/

theorem spRead_toNat (s : State) :
    (spRead s).toNat = (loadByte Config.spHiAddr s).toNat * 256 + (loadByte Config.spLoAddr s).toNat :=
  bytePair_toNat _ _

/-- Settles O38: the store replaces one of SP's two bytes and keeps the other, which is the other half of the old SP. -/
theorem storeMovesTheStackPointer : Obligations.StoreMovesTheStackPointer := by
  intro s r hm
  have hst : ∀ addr, exec (.stInd r addr) s = .next (memWrite addr (readReg r s) s) := fun _ => rfl
  have hlt := (loadByte Config.spLoAddr s).isLt
  refine ⟨⟨_, hst Config.spHiAddr, ?_⟩, _, hst Config.spLoAddr, ?_⟩
  · rw [spRead_toNat, loadByte_memWrite_same hm, loadByte_memWrite_other (by decide), spRead_toNat s]
    omega
  · rw [spRead_toNat, loadByte_memWrite_other (by decide), loadByte_memWrite_same hm, spRead_toNat s]
    omega

end Sys2Proof.Machine
end

section
/-! Words of the opcode map, and the length of an instruction (30_encoding R57 to R61, 60_exceptions R136). -/

namespace Sys2Proof

open Machine

/-- Settles O3: the decoder run on the ten words. -/
theorem specWordsDecode : Obligations.SpecWordsDecode :=
  ⟨rfl, rfl, rfl, rfl, rfl, rfl, rfl, rfl, rfl, rfl⟩

/-! ## Lengths (R57, R60) -/

theorem length_encodeWith (m : CodeMap) (i : Instr) : (encodeWith m i).length = i.op.len :=
  (Laws.Shape.all i m).2.trans (len_eq_format_length i.op).symm

theorem len_bounds (o : Op) : 1 ≤ o.len ∧ o.len ≤ 4 := by
  cases o <;> decide

/-- Settles O5: an encoding has its row's length, and any shorter beginning of it is truncated. -/
theorem lengthIsFixedByTheOpcode : Obligations.LengthIsFixedByTheOpcode := by
  intro i
  have hlen : (encode i).length = i.op.len := length_encodeWith CodeMap.standard i
  exact ⟨hlen, len_eq_format_length i.op, (len_bounds i.op).1, (len_bounds i.op).2,
    fun k hk hlt => decode_take_encode hk (hlen ▸ hlt)⟩

end Sys2Proof
end

section
/-! Operand numbers against the fields of a row: each format's reader accepts exactly the numbers that fit, and puts them into
its instruction in order (30_encoding R58, R60, R76, R77). -/

namespace Sys2Proof.Machine

/-! ## One operand number against its field (R58, R76) -/

theorem regOfIndex_isSome (n : Nat) : (regOfIndex n).isSome = decide (n < Field.reg.limit) := by
  rw [Bool.eq_iff_iff, decide_eq_true_iff, Option.isSome_iff_exists]
  exact ⟨fun ⟨_, h⟩ => (List.getElem?_eq_some_iff.mp h).1, fun h => ⟨_, List.getElem?_eq_getElem h⟩⟩

theorem byteOfNat_isSome (n : Nat) : (byteOfNat n).isSome = decide (n < 256) := by
  rw [byteOfNat]
  split <;> simp [*]

theorem addrOfNat_isSome (n : Nat) : (addrOfNat n).isSome = decide (n < 65536) := by
  rw [addrOfNat]
  split <;> simp [*]

theorem number_of_regOfIndex {n : Nat} {r : Reg} (h : regOfIndex n = some r) : r.number = n := by
  have hn : n < 5 := (List.getElem?_eq_some_iff.mp h).1
  interval_cases n <;> cases h <;> rfl

theorem toNat_of_byteOfNat {n : Nat} {b : Byte} (h : byteOfNat n = some b) : b.toNat = n := by
  rw [byteOfNat] at h
  split at h
  · next hn => cases h; exact Nat.mod_eq_of_lt hn
  · cases h

theorem toNat_of_addrOfNat {n : Nat} {a : Addr} (h : addrOfNat n = some a) : a.toNat = n := by
  rw [addrOfNat] at h
  split at h
  · next hn => cases h; exact Nat.mod_eq_of_lt hn
  · cases h

/-! ## The operand numbers of each format (R60): when they fit, and the instruction they make -/

theorem rawZ_isSome (i : Instr) (ns : List Nat) : (rawZ i ns).isSome = operandsFit [] ns := by
  match ns with
  | [] | _ :: _ => rfl

theorem rawR_isSome (mk : Reg → Instr) (ns : List Nat) : (rawR mk ns).isSome = operandsFit [.reg] ns := by
  match ns with
  | [] => rfl
  | [n] => simp [rawR, operandsFit, regOfIndex_isSome]
  | _ :: _ :: _ => simp [rawR, operandsFit]

theorem rawB_isSome {f : Field} (hf : f.limit = 256) (mk : Byte → Instr) (ns : List Nat) :
    (rawB mk ns).isSome = operandsFit [f] ns := by
  match ns with
  | [] => rfl
  | [n] => simp [rawB, operandsFit, byteOfNat_isSome, hf]
  | _ :: _ :: _ => simp [rawB, operandsFit]

theorem rawW_isSome {f : Field} (hf : f.limit = 65536) (mk : Addr → Instr) (ns : List Nat) :
    (rawW mk ns).isSome = operandsFit [f] ns := by
  match ns with
  | [] => rfl
  | [n] => simp [rawW, operandsFit, addrOfNat_isSome, hf]
  | _ :: _ :: _ => simp [rawW, operandsFit]

/-- The two operands of a format make its instruction when each is a value of its field. -/
theorem isSome_bind_map {α β γ : Type} (o : Option α) (o2 : Option β) (mk : α → β → γ) :
    (o.bind fun a => o2.map (mk a)).isSome = (o.isSome && o2.isSome) := by
  cases o <;> simp

theorem rawRR_isSome (mk : Reg → Reg → Instr) (ns : List Nat) :
    (rawRR mk ns).isSome = operandsFit [.reg, .reg] ns := by
  match ns with
  | [] => rfl
  | [n, n2] => simp [rawRR, operandsFit, isSome_bind_map, regOfIndex_isSome]
  | [_] | _ :: _ :: _ :: _ => simp [rawRR, operandsFit]

theorem rawRB_isSome {f : Field} (hf : f.limit = 256) (mk : Reg → Byte → Instr) (ns : List Nat) :
    (rawRB mk ns).isSome = operandsFit [.reg, f] ns := by
  match ns with
  | [] => rfl
  | [n, n2] => simp [rawRB, operandsFit, isSome_bind_map, regOfIndex_isSome, byteOfNat_isSome, hf]
  | [_] | _ :: _ :: _ :: _ => simp [rawRB, operandsFit]

theorem rawRW_isSome {f : Field} (hf : f.limit = 65536) (mk : Reg → Addr → Instr) (ns : List Nat) :
    (rawRW mk ns).isSome = operandsFit [.reg, f] ns := by
  match ns with
  | [] => rfl
  | [n, n2] => simp [rawRW, operandsFit, isSome_bind_map, regOfIndex_isSome, addrOfNat_isSome, hf]
  | [_] | _ :: _ :: _ :: _ => simp [rawRW, operandsFit]

theorem rawZ_eq_some {i j : Instr} {ns : List Nat} (h : rawZ i ns = some j) : j = i ∧ ns = [] := by
  match ns, h with
  | [], h => cases h; exact ⟨rfl, rfl⟩

theorem rawR_eq_some {mk : Reg → Instr} {j : Instr} {ns : List Nat} (h : rawR mk ns = some j) :
    ∃ r, j = mk r ∧ ns = [r.number] := by
  match ns, h with
  | [n], h =>
    obtain ⟨r, hr, rfl⟩ := Option.map_eq_some_iff.mp h
    exact ⟨r, rfl, by rw [number_of_regOfIndex hr]⟩

theorem rawB_eq_some {mk : Byte → Instr} {j : Instr} {ns : List Nat} (h : rawB mk ns = some j) :
    ∃ b, j = mk b ∧ ns = [b.toNat] := by
  match ns, h with
  | [n], h =>
    obtain ⟨b, hb, rfl⟩ := Option.map_eq_some_iff.mp h
    exact ⟨b, rfl, by rw [toNat_of_byteOfNat hb]⟩

theorem rawW_eq_some {mk : Addr → Instr} {j : Instr} {ns : List Nat} (h : rawW mk ns = some j) :
    ∃ a, j = mk a ∧ ns = [a.toNat] := by
  match ns, h with
  | [n], h =>
    obtain ⟨a, ha, rfl⟩ := Option.map_eq_some_iff.mp h
    exact ⟨a, rfl, by rw [toNat_of_addrOfNat ha]⟩

theorem rawRR_eq_some {mk : Reg → Reg → Instr} {j : Instr} {ns : List Nat} (h : rawRR mk ns = some j) :
    ∃ r r2, j = mk r r2 ∧ ns = [r.number, r2.number] := by
  match ns, h with
  | [n, n2], h =>
    obtain ⟨r, hr, h2⟩ := Option.bind_eq_some_iff.mp h
    obtain ⟨r2, hr2, rfl⟩ := Option.map_eq_some_iff.mp h2
    exact ⟨r, r2, rfl, by rw [number_of_regOfIndex hr, number_of_regOfIndex hr2]⟩

theorem rawRB_eq_some {mk : Reg → Byte → Instr} {j : Instr} {ns : List Nat} (h : rawRB mk ns = some j) :
    ∃ r b, j = mk r b ∧ ns = [r.number, b.toNat] := by
  match ns, h with
  | [n, n2], h =>
    obtain ⟨r, hr, h2⟩ := Option.bind_eq_some_iff.mp h
    obtain ⟨b, hb, rfl⟩ := Option.map_eq_some_iff.mp h2
    exact ⟨r, b, rfl, by rw [number_of_regOfIndex hr, toNat_of_byteOfNat hb]⟩

theorem rawRW_eq_some {mk : Reg → Addr → Instr} {j : Instr} {ns : List Nat} (h : rawRW mk ns = some j) :
    ∃ r a, j = mk r a ∧ ns = [r.number, a.toNat] := by
  match ns, h with
  | [n, n2], h =>
    obtain ⟨r, hr, h2⟩ := Option.bind_eq_some_iff.mp h
    obtain ⟨a, ha, rfl⟩ := Option.map_eq_some_iff.mp h2
    exact ⟨r, a, rfl, by rw [number_of_regOfIndex hr, toNat_of_addrOfNat ha]⟩

/-! ## The rows (R61) -/

/-- A raw instruction is an instruction exactly when its operand numbers fit (R76). -/
theorem instrOfRaw_isSome (op : Op) (ns : List Nat) :
    (instrOfRaw ⟨op, ns⟩).isSome = operandsFit op.format.fields ns := by
  cases op with
  | nop | inc | dec | ret => exact rawZ_isSome _ ns
  | addReg | subReg | cmpReg | push | pop => exact rawR_isSome _ ns
  | addImm | addIdx | subImm | subIdx | cmpImm | cmpIdx => exact rawB_isSome rfl _ ns
  | addInd | subInd | cmpInd | jmp | jc | jnc | jp | jnp | jz | jnz | js | jns | call => exact rawW_isSome rfl _ ns
  | ldReg | stReg => exact rawRR_isSome _ ns
  | ldImm | ldIdx | stIdx => exact rawRB_isSome rfl _ ns
  | ldInd | stInd => exact rawRW_isSome rfl _ ns

/-- The instruction a raw instruction is has its row and its operand numbers (R58, R77). -/
theorem op_fieldNumbers_of_instrOfRaw {op : Op} {ns : List Nat} {i : Instr} (h : instrOfRaw ⟨op, ns⟩ = some i) :
    i.op = op ∧ i.fieldNumbers = ns := by
  cases op with
  | nop | inc | dec | ret =>
    obtain ⟨rfl, rfl⟩ := rawZ_eq_some h
    exact ⟨rfl, rfl⟩
  | addReg | subReg | cmpReg | push | pop =>
    obtain ⟨r, rfl, rfl⟩ := rawR_eq_some h
    exact ⟨rfl, rfl⟩
  | addImm | addIdx | subImm | subIdx | cmpImm | cmpIdx =>
    obtain ⟨b, rfl, rfl⟩ := rawB_eq_some h
    exact ⟨rfl, rfl⟩
  | addInd | subInd | cmpInd | jmp | jc | jnc | jp | jnp | jz | jnz | js | jns | call =>
    obtain ⟨a, rfl, rfl⟩ := rawW_eq_some h
    exact ⟨rfl, rfl⟩
  | ldReg | stReg =>
    obtain ⟨r, r2, rfl, rfl⟩ := rawRR_eq_some h
    exact ⟨rfl, rfl⟩
  | ldImm | ldIdx | stIdx =>
    obtain ⟨r, b, rfl, rfl⟩ := rawRB_eq_some h
    exact ⟨rfl, rfl⟩
  | ldInd | stInd =>
    obtain ⟨r, a, rfl, rfl⟩ := rawRW_eq_some h
    exact ⟨rfl, rfl⟩

/-- Settles O8: each row's operand reader accepts exactly the numbers that fit, and keeps them. -/
theorem rawInstructionsThatFit : Obligations.RawInstructionsThatFit := by
  intro ⟨op, ns⟩
  refine ⟨?_, fun i h => op_fieldNumbers_of_instrOfRaw h⟩
  rw [instrOfRaw_isSome, RawInstr.wf]

end Sys2Proof.Machine
end

section
/-! The step against the image (30_encoding R67, 60_exceptions R132 to R143, R154): the instruction it runs, its one outcome,
the order of its checks, and what the host port answers where no step runs. -/

namespace Sys2Proof.Machine

/-! ## The instruction at pc (R18, R19, R67) -/

/-- next is (pc + Len) mod 65536 (R18). -/
theorem advancePast_eq (i : Instr) (s : State) :
    advancePast i s = setPc (BitVec.ofNat 16 (s.pc.toNat + i.op.len)) s := by
  rw [advancePast, BitVec.ofNat_add, BitVec.ofNat_toNat, BitVec.setWidth_eq]

theorem stepWith_of_decodeWith_ok {m : CodeMap} {s : State} {i : Instr} {rest : List Byte} (hr : s.ready = true)
    (hf : fetchStop s = none) (hd : decodeWith m (fetchWindow s) = .ok (i, rest)) :
    stepWith m s = exec i (setPc (BitVec.ofNat 16 (s.pc.toNat + i.op.len)) s) := by
  simp only [stepWith, hr, if_true, hf, hd, advancePast_eq]

/-- Settles O9: past the ready and bound checks the step executes what is decoded, with pc advanced. -/
theorem stepRunsTheDecodedInstruction : Obligations.StepRunsTheDecodedInstruction :=
  fun _ _ _ hr hf hd => stepWith_of_decodeWith_ok hr hf hd

/-- Settles O10: an instruction's bytes at pc pass the bound check, are fetched whole, and decode to it. -/
theorem stepRunsTheInstructionInTheImage : Obligations.StepRunsTheInstructionInTheImage := by
  intro m hm s i hr _ hc
  have hlen : (encodeWith m i).length ≤ 4 := (length_encodeWith m i).trans_le (len_bounds i.op).2
  have hf : fetchStop s = none := fetchStop_of_codeAt (encodeWith_eq_cons m i ▸ hc)
  have hd := decodeEncodeRoundTrip m hm i (instrBytesFrom s (encodeWith m i).length (4 - (encodeWith m i).length))
  rw [← fetchWindow_of_codeAt hc hlen] at hd
  exact stepWith_of_decodeWith_ok hr hf hd

/-! ## The outcomes of a step (R132, R139) -/

theorem fetchStop_eq_some {s : State} {f : Fault} (h : fetchStop s = some f) :
    f = .endOfImage ∨ f = .fetchOutsideImage s.pc := by
  rw [fetchStop] at h
  split at h
  · split at h
    · exact .inl (Option.some.inj h).symm
    · exact .inr (Option.some.inj h).symm
  · cases h

/-- A fault with its code among the four and its record: the given pc, and a byte, which is absent exactly for code 3. -/
def HasRecord (f : Fault) (here : Addr) : Prop :=
  ∃ code byte, faultCode f = some code ∧ 1 ≤ code ∧ code ≤ 4 ∧
    faultInfo f = some (here, byte) ∧ (byte = none ↔ code = 3)

theorem hasRecord_fetchOutsideImage (here : Addr) : HasRecord (.fetchOutsideImage here) here :=
  ⟨3, none, rfl, by decide, by decide, rfl, by simp⟩

theorem hasRecord_decodeFault (here : Addr) (e : DecodeError) : HasRecord (decodeFault here e) here := by
  cases e with
  | noBytes => exact hasRecord_fetchOutsideImage here
  | invalidOpcode b => exact ⟨1, some b, rfl, by decide, by decide, rfl, by simp⟩
  | invalidRegister b => exact ⟨2, some b, rfl, by decide, by decide, rfl, by simp⟩
  | truncated b => exact ⟨4, some b, rfl, by decide, by decide, rfl, by simp⟩

/-- Settles O16: the stops of the bound check, the decoder's reports and the executions, each with its record. -/
theorem everyStepHasOneOutcome : Obligations.EveryStepHasOneOutcome := by
  intro s
  cases hr : s.ready with
  | false => exact .inl ⟨rfl, step_not_ready hr⟩
  | true =>
    refine .inr ⟨rfl, ?_⟩
    obtain ⟨f, hf, hs⟩ | ⟨e, -, -, hs⟩ | ⟨_, _, t, -, -, -, hs⟩ := step_cases hr
    · obtain rfl | rfl := fetchStop_eq_some hf
      · exact .inr (.inl hs)
      · obtain ⟨code, byte, hrec⟩ := hasRecord_fetchOutsideImage s.pc
        exact .inr (.inr ⟨_, code, byte, hs, hrec⟩)
    · obtain ⟨code, byte, hrec⟩ := hasRecord_decodeFault s.pc e
      exact .inr (.inr ⟨_, code, byte, hs, hrec⟩)
    · exact .inl ⟨t, hs⟩

/-! ## The order of the checks (R140) -/

theorem step_of_opOfByte_none {s : State} {b : Byte} (hr : s.ready = true) (hc : CodeAt s [b])
    (ho : opOfByte CodeMap.standard b = none) : step s = .fault (.invalidOpcode s.pc b) := by
  have hd : decode (fetchWindow s) = .error (.invalidOpcode b) := by
    rw [fetchWindow_cons hc]
    exact (decodeWith_cons_eq_invalidOpcode_iff _ b _).mpr ho
  exact step_of_decode_error hr (fetchStop_of_codeAt hc) hd

/-- Bytes that are all there are fetched, each in its place. -/
theorem instrBytesFrom_of_isSome {s : State} {n : Nat} : ∀ {i : Nat}, (∀ k, k < n → (instrByte (i + k) s).isSome) →
    (instrBytesFrom s i n).length = n ∧ ∀ k, k < n → (instrBytesFrom s i n)[k]? = instrByte (i + k) s := by
  induction n with
  | zero => exact fun _ => ⟨rfl, nofun⟩
  | succ n ih =>
    intro i h
    obtain ⟨b, hb⟩ := Option.isSome_iff_exists.mp (h 0 (Nat.zero_lt_succ n))
    have hshift : ∀ k, i + 1 + k = i + (k + 1) := fun k => by omega
    obtain ⟨hlen, hget⟩ := ih (i := i + 1) fun k hk => hshift k ▸ h (k + 1) (Nat.succ_lt_succ hk)
    rw [instrBytesFrom_cons (i := i) hb, List.length_cons, hlen]
    refine ⟨rfl, fun k hk => ?_⟩
    cases k with
    | zero => exact hb.symm
    | succ k => rw [List.getElem?_cons_succ, hget k (Nat.lt_of_succ_lt_succ hk), hshift]

/-- The byte at pc followed by the n after it, in an image that holds them all (R19). -/
theorem exists_codeAt_cons {s : State} {b : Byte} {n : Nat} (hb : s.image[s.pc.toNat]? = some b)
    (h : s.image.length = 65536 ∨ s.pc.toNat + (n + 1) ≤ s.image.length) :
    ∃ operands, operands.length = n ∧ CodeAt s (b :: operands) := by
  have hbyte : ∀ k, k < n → instrByte (1 + k) s = s.image[(s.pc.toNat + (1 + k)) % 65536]? :=
    fun k hk => instrByte_inside (h.imp id fun hle => by omega)
  have hsome : ∀ k, k < n → (instrByte (1 + k) s).isSome := by
    intro k hk
    have hin : (s.pc.toNat + (1 + k)) % 65536 < s.image.length := by omega
    rw [hbyte k hk, List.getElem?_eq_getElem hin]
    rfl
  obtain ⟨hlen, hget⟩ := instrBytesFrom_of_isSome hsome
  refine ⟨instrBytesFrom s 1 n, hlen, h.imp id fun hle => by rwa [List.length_cons, hlen], fun k hk => ?_⟩
  rw [List.length_cons, hlen] at hk
  cases k with
  | zero => exact (codeAt_singleton hb).bytes 0 Nat.zero_lt_one
  | succ k =>
    have hkn : k < n := Nat.lt_of_succ_lt_succ hk
    rw [List.getElem?_cons_succ, hget k hkn, hbyte k hkn, Nat.add_comm 1 k]

/-- The decoder's report of a register field byte that the code map gives to no register. -/
def IsBadId (m : CodeMap) (e : DecodeError) : Prop := ∃ b, e = .invalidRegister b ∧ regOfByte m b = none

theorem withReg_isBadId {m : CodeMap} {b : Byte} {k : Reg → Decoded} {e : DecodeError}
    (hk : ∀ r, k r = .error e → IsBadId m e) (h : withReg m b k = .error e) : IsBadId m e := by
  cases hb : regOfByte m b with
  | none =>
    rw [withReg_of_regOfByte_eq_none hb] at h
    exact ⟨b, (Except.error.inj h).symm, hb⟩
  | some r =>
    rw [withReg, hb] at h
    exact hk r h

theorem withReg_pure_isBadId {m : CodeMap} {b : Byte} {f : Reg → Instr × List Byte} {e : DecodeError}
    (h : withReg m b (fun r => .ok (f r)) = .error e) : IsBadId m e :=
  withReg_isBadId (fun _ hk => by cases hk) h

/-- With all its operand bytes there, a row decodes or reports a bad register id (R140). -/
theorem decodeOperands_isBadId {m : CodeMap} {c : Byte} {o : Op} {operands rest : List Byte} {e : DecodeError}
    (hlen : operands.length + 1 = o.len) (h : decodeOperands m c o (operands ++ rest) = .error e) : IsBadId m e := by
  cases o with
  | nop | inc | dec | ret => cases h
  | addReg | subReg | cmpReg | push | pop =>
    match operands, hlen with
    | [_], _ => exact withReg_pure_isBadId h
  | addImm | addIdx | subImm | subIdx | cmpImm | cmpIdx =>
    match operands, hlen with
    | [_], _ => cases h
  | addInd | subInd | cmpInd | jmp | jc | jnc | jp | jnp | jz | jnz | js | jns | call =>
    match operands, hlen with
    | [_, _], _ => cases h
  | ldReg | stReg =>
    match operands, hlen with
    | [_, _], _ => exact withReg_isBadId (fun _ => withReg_pure_isBadId) h
  | ldImm | ldIdx | stIdx =>
    match operands, hlen with
    | [_, _], _ => exact withReg_pure_isBadId h
  | ldInd | stInd =>
    match operands, hlen with
    | [_, _, _], _ => exact withReg_pure_isBadId h

/-- Under the spec's ids a byte that names no register is above 0x04 (R59). -/
theorem four_lt_of_regOfByte_eq_none {b : Byte} (h : regOfByte CodeMap.standard b = none) : 4 < b.toNat := by
  by_contra hle
  obtain ⟨r, rfl⟩ := exists_regIdByte_eq (Nat.lt_succ_of_le (Nat.le_of_not_lt hle))
  cases h.symm.trans (regOfByte_regId CodeMap.standard_wf r)

/-- Where a whole instruction lies at pc, by the length of its opcode's row, a ready step runs it or reports a bad register
id (R134, R140). -/
theorem step_of_codeAt_op {s : State} {b : Byte} {op : Op} {operands : List Byte} (hr : s.ready = true)
    (ho : opOfByte CodeMap.standard b = some op) (hlen : operands.length + 1 = op.len)
    (hc : CodeAt s (b :: operands)) :
    (∃ t, step s = .next t) ∨ ∃ bad, 4 < bad.toNat ∧ step s = .fault (.invalidRegister s.pc bad) := by
  have hf : fetchStop s = none := fetchStop_of_codeAt hc
  obtain ⟨f, hs, -⟩ | ⟨e, -, hd, hs⟩ | ⟨_, _, t, -, -, -, hs⟩ := step_cases hr
  · cases hf.symm.trans hs
  · obtain rfl : opcodeByte op = b := opcode_of_opOfByte ho
    rw [fetchWindow_of_codeAt hc (hlen.trans_le (len_bounds op).2), List.cons_append] at hd
    obtain ⟨bad, rfl, hbad⟩ :=
      decodeOperands_isBadId hlen ((decodeWith_opcode_cons CodeMap.standard_wf op _).symm.trans hd)
    exact .inr ⟨bad, four_lt_of_regOfByte_eq_none hbad, hs⟩
  · exact .inl ⟨t, hs⟩

/-- The same, from the byte at pc and the room that its row's length has in the image. -/
theorem step_of_opOfByte_some {s : State} {b : Byte} {op : Op} (hr : s.ready = true)
    (hb : s.image[s.pc.toNat]? = some b) (ho : opOfByte CodeMap.standard b = some op)
    (h : s.image.length = 65536 ∨ s.pc.toNat + op.len ≤ s.image.length) :
    (∃ t, step s = .next t) ∨ ∃ bad, 4 < bad.toNat ∧ step s = .fault (.invalidRegister s.pc bad) := by
  obtain ⟨n, hn⟩ := Nat.exists_eq_add_one.mpr (len_bounds op).1
  rw [hn] at h
  obtain ⟨operands, hlen, hc⟩ := exists_codeAt_cons hb h
  exact step_of_codeAt_op hr ho (by rw [hlen, hn]) hc

/-- Settles O17: the bounds; the opcode byte at pc; then its row's length, and where that fits, the register ids. -/
theorem checksRunInOrder : Obligations.ChecksRunInOrder := by
  intro s hr hL
  obtain ⟨hend, hpast, -⟩ := pastTheImageEnd.2 s hr
  refine ⟨hend hL, hpast hL, fun b hb => ⟨step_of_opOfByte_none hr (codeAt_singleton hb), fun op ho => ?_⟩⟩
  have hwhole : s.pc.toNat + op.len ≤ s.image.length → _ := fun h => step_of_opOfByte_some hr hb ho (.inr h)
  refine ⟨⟨fun hlt => ?_, fun hs => ?_⟩, hwhole⟩
  · obtain rfl : opcodeByte op = b := opcode_of_opOfByte ho
    exact truncatedInstructionFault s op hr hL hb hlt
  · by_contra hge
    obtain ⟨t, ht⟩ | ⟨bad, -, ht⟩ := hwhole (Nat.le_of_not_lt hge)
    · cases hs.symm.trans ht
    · cases hs.symm.trans ht

/-- Settles O18: there is a byte at every pc, and a whole instruction where it is an opcode. -/
theorem fullImageHasNoEnd : Obligations.FullImageHasNoEnd := by
  intro s hr hL
  have hb : s.image[s.pc.toNat]? = some _ := List.getElem?_eq_getElem (hL ▸ s.pc.isLt)
  cases ho : opOfByte CodeMap.standard s.image[s.pc.toNat] with
  | none => exact .inr (.inl ⟨_, step_of_opOfByte_none hr (codeAt_singleton hb) ho⟩)
  | some op =>
    obtain hnext | ⟨bad, -, hs⟩ := step_of_opOfByte_some hr hb ho (.inl hL)
    · exact .inl hnext
    · exact .inr (.inr ⟨bad, hs⟩)

/-! ## The host port (R143, R152, R154, R155, R162) -/

/-- Settles O20: a run's first step is the one that stops it, before anything is counted. -/
theorem faultsRepeat : Obligations.FaultsRepeat :=
  fun _ _ n hr hs => (portRun_of_ready hr (n + 1)).trans (runLoop_of_fault hs)

theorem portRun_not_ready {s : State} (hr : s.ready = false) (n : Nat) : portRun n s = .error .notReady := by
  rw [portRun, if_neg (Bool.eq_false_iff.mp hr)]

/-- Settles O15: step and run look at the ready mark first, and a load clears it. -/
theorem notReadyIsRefused : Obligations.NotReadyIsRefused := by
  have hrefused : ∀ s n, s.ready = false → portStep s = .refused .notReady ∧ portRun n s = .error .notReady :=
    fun s n hr => ⟨step_not_ready hr, portRun_not_ready hr n⟩
  refine fun s n => ⟨hrefused s n, fun bytes t h => ?_⟩
  obtain ⟨-, rfl⟩ := portLoad_next h
  exact hrefused _ n rfl

theorem imageWf_iff {image : List Byte} : imageWf image = true ↔ image.length ≤ 65536 := decide_eq_true_iff

/-- Settles O26: the one check of a load is the image's length, and it sets two fields. -/
theorem loadOperation : Obligations.LoadOperation := by
  refine fun bytes s => ⟨fun hlong => ?_, fun hfits => ?_⟩
  · rw [portLoad, if_neg (fun hwf => Nat.not_le.mpr hlong (imageWf_iff.mp hwf))]
  · have hload : portLoad bytes s = .next { s with image := bytes, ready := false } :=
      if_pos (imageWf_iff.mpr hfits)
    exact ⟨_, hload, rfl, rfl, fun q => by cases q <;> rfl, rfl, rfl, fun _ => rfl⟩

end Sys2Proof.Machine
end

section
/-! The assembler's two passes together (30_encoding R79 to R83): pass 1 binds each label to the sum of the widths before it,
pass 2 emits each line as many bytes as its width, so a line's bytes stand where pass 1 says; and the operands of a line are
the fields of its instruction (R75, R81). -/

namespace Sys2Proof.Machine

/-! ## Pass 1 (R31, R79, R80) -/

/-- Where pass 1 has no error, the lines end within the code space (R31). -/
theorem le_of_passOne_nil {lines : List AsmLine} : ∀ {offset : Nat} {symbols : List Symbol}, offset ≤ 65536 →
    (passOne offset symbols lines).1 = [] → offset + (lines.map lineWidth).sum ≤ 65536 := by
  induction lines with
  | nil => exact fun ho _ => ho
  | cons l rest ih =>
    intro offset symbols ho h
    simp only [passOne, List.append_eq_nil_iff] at h
    obtain ⟨⟨-, htooLong⟩, hrest⟩ := h
    have hle := ih (le_of_tooLongAt_nil ho htooLong) hrest
    rw [List.map_cons, List.sum_cons]
    omega

/-- Where pass 1 has no error, each label is bound to the offset of its line (R79, R80). -/
theorem findSymbol_passOne {l : AsmLine} {name : Text} (hl : l.label = some name) {before after : List AsmLine} :
    ∀ {offset : Nat} {symbols : List Symbol}, (passOne offset symbols (before ++ l :: after)).1 = [] →
      findSymbol (passOne offset symbols (before ++ l :: after)).2 name =
        some ⟨name, offset + (before.map lineWidth).sum, l.number⟩ := by
  induction before with
  | nil =>
    intro offset symbols h
    simp only [List.nil_append, passOne, List.append_eq_nil_iff] at h ⊢
    obtain ⟨⟨hduplicate, -⟩, -⟩ := h
    have hbound : findSymbol (bindLabel offset symbols l) name = some ⟨name, offset, l.number⟩ :=
      findSymbol_bindLabel hl (findSymbol_of_duplicateAt_nil hl hduplicate)
    obtain ⟨new, hnew⟩ := passOne_extends (lines := after) (offset := offset + lineWidth l)
      (symbols := bindLabel offset symbols l)
    rw [hnew]
    exact findSymbol_append hbound
  | cons first rest ih =>
    intro offset symbols h
    simp only [List.cons_append, passOne, List.append_eq_nil_iff] at h ⊢
    rw [ih h.2, List.map_cons, List.sum_cons, Nat.add_assoc]

/-! ## An operand's number (R75, R81) -/

theorem idxOf_all_eq_number (r : Reg) : Reg.all.idxOf r = r.number := by
  cases r <;> rfl

theorem standsFor_of_operandNumber {symbols : List Symbol} {o : AsmOperand} {n : Nat}
    (h : operandNumber symbols o = .ok n) : StandsFor symbols o n := by
  cases o with
  | reg r => exact (Except.ok.inj h).symm.trans (idxOf_all_eq_number r)
  | imm v | ind v | idx v => exact (Except.ok.inj h).symm
  | label name =>
    rw [operandNumber] at h
    split at h
    · next sym hsym =>
      split at h
      · exact ⟨sym, hsym, (Except.ok.inj h).symm⟩
      · cases h
    · cases h

theorem standsFor_of_operandNumbers {symbols : List Symbol} {os : List AsmOperand} : ∀ {ns : List Nat},
    operandNumbers symbols os = .ok ns → List.Forall₂ (StandsFor symbols) os ns := by
  induction os with
  | nil => intro ns h; cases h; exact .nil
  | cons o rest ih =>
    intro ns h
    rw [operandNumbers] at h
    split at h
    · next n ns' hn hns => cases h; exact .cons (standsFor_of_operandNumber hn) (ih hns)
    · cases h
    · cases h

/-! ## A line's instruction (R77, R81) -/

/-- The row that a mnemonic and forms select has that mnemonic, and those forms in its fields (R61, R77). -/
theorem mnemonic_form_of_opOfForms {mnemonic : Mnemonic} {forms : List Form} {op : Op}
    (h : opOfForms mnemonic forms = some op) :
    op.mnemonic = mnemonic ∧ op.format.fields.map Field.form = forms := by
  unfold opOfForms at h
  split at h <;> cases h <;> exact ⟨rfl, rfl⟩

/-- What an instruction that resolves is: of the row its line spells, with its operands' numbers in its fields (R81). -/
theorem resolveInstr_ok {symbols : List Symbol} {ai : AsmInstr} {i : Instr} (h : resolveInstr symbols ai = .ok i) :
    ai.row = some i.op ∧ operandNumbers symbols ai.operands = .ok i.fieldNumbers := by
  rw [resolveInstr] at h
  split at h
  · cases h
  · next op hrow =>
    split at h
    · cases h
    · next numbers hnumbers =>
      split at h
      · next j hj =>
        cases h
        obtain ⟨hop, hfields⟩ := op_fieldNumbers_of_instrOfRaw hj
        rw [hop, hfields]
        exact ⟨hrow, hnumbers⟩
      · cases h

/-- A line that resolves gives the NOP of its label, if it has one, and then its own instruction, if it has one (R79). -/
theorem resolveLine_ok {symbols : List Symbol} {l : AsmLine} {instrs : List Instr}
    (h : resolveLine symbols l = .ok instrs) : ∃ own, instrs = List.replicate (labelWidth l.label) .nop ++ own ∧
      ((l.instr = none ∧ own = []) ∨ ∃ ai i, l.instr = some ai ∧ resolveInstr symbols ai = .ok i ∧ own = [i]) := by
  obtain ⟨number, label, instr⟩ := l
  cases instr with
  | none =>
    refine ⟨[], ?_, .inl ⟨rfl, rfl⟩⟩
    cases label <;> cases h <;> rfl
  | some ai =>
    cases hi : resolveInstr symbols ai with
    | error kind => simp [resolveLine, hi] at h
    | ok i =>
      refine ⟨[i], ?_, .inr ⟨ai, i, rfl, hi, rfl⟩⟩
      simp only [resolveLine, hi] at h
      cases label <;> cases h <;> rfl

/-! ## Widths (R79, R80) -/

theorem imageOf_nops (m : CodeMap) (n : Nat) :
    imageOf m (List.replicate n .nop) = List.replicate n (m.opcode .nop) := by
  rw [imageOf, List.map_replicate]
  exact List.flatten_replicate_singleton

theorem imageOf_singleton (m : CodeMap) (i : Instr) : imageOf m [i] = encodeWith m i :=
  List.append_nil _

/-- A line's bytes are as many as its width, which pass 1 knows from its spelling alone (R80). -/
theorem length_imageOf_resolveLine {m : CodeMap} {symbols : List Symbol} {l : AsmLine} {instrs : List Instr}
    (h : resolveLine symbols l = .ok instrs) : (imageOf m instrs).length = lineWidth l := by
  obtain ⟨own, rfl, hown⟩ := resolveLine_ok h
  have hlen : (imageOf m own).length = instrWidth l.instr := by
    obtain ⟨hl, rfl⟩ | ⟨ai, i, hl, hi, rfl⟩ := hown
    · rw [hl]
      rfl
    · rw [hl, instrWidth, (resolveInstr_ok hi).1, imageOf_singleton, length_encodeWith]
      rfl
  rw [imageOf_append, List.length_append, imageOf_nops, List.length_replicate, hlen, lineWidth]

/-! ## Pass 2 (R81, R83) -/

theorem passTwo_cons_ok {symbols : List Symbol} {l : AsmLine} {rest : List AsmLine}
    (h : (passTwo symbols (l :: rest)).1 = []) :
    ∃ instrs, resolveLine symbols l = .ok instrs ∧ (passTwo symbols rest).1 = [] ∧
      (passTwo symbols (l :: rest)).2 = instrs ++ (passTwo symbols rest).2 := by
  simp only [passTwo] at h ⊢
  split at h
  · next instrs hl => exact ⟨instrs, hl, h, rfl⟩
  · cases h

/-- Where pass 2 has no error, the image is as long as the widths of the lines together (R80, R83). -/
theorem length_imageOf_passTwo {m : CodeMap} {symbols : List Symbol} {lines : List AsmLine}
    (h : (passTwo symbols lines).1 = []) :
    (imageOf m (passTwo symbols lines).2).length = (lines.map lineWidth).sum := by
  induction lines with
  | nil => rfl
  | cons l rest ih =>
    obtain ⟨instrs, hl, hrest, heq⟩ := passTwo_cons_ok h
    rw [heq, imageOf_append, List.length_append, length_imageOf_resolveLine hl, ih hrest, List.map_cons, List.sum_cons]

/-- Where pass 2 has no error, a line's bytes stand in the image behind as many as the widths before it make. -/
theorem imageOf_passTwo_at_line (m : CodeMap) {symbols : List Symbol} {before after : List AsmLine} {l : AsmLine}
    (h : (passTwo symbols (before ++ l :: after)).1 = []) :
    ∃ front instrs back, front.length = (before.map lineWidth).sum ∧ resolveLine symbols l = .ok instrs ∧
      imageOf m (passTwo symbols (before ++ l :: after)).2 = front ++ (imageOf m instrs ++ back) := by
  obtain ⟨hbefore, hline, happ⟩ := passTwo_append h
  obtain ⟨instrs, hl, -, heq⟩ := passTwo_cons_ok hline
  refine ⟨imageOf m (passTwo symbols before).2, instrs, imageOf m (passTwo symbols after).2,
    length_imageOf_passTwo hbefore, hl, ?_⟩
  rw [happ, imageOf_append, heq, imageOf_append]

/-! ## The image (R79, R81) -/

/-- Settles O59: both passes add the same widths; a label's line begins with its NOP at the offset that pass 1 binds. -/
theorem labelsAreNopsAtTheirOffsets : Obligations.LabelsAreNopsAtTheirOffsets := by
  intro m lines image h
  obtain ⟨-, hone, htwo, rfl⟩ := assembleLines_ok h
  have hlen : (imageOf m (passTwo (passOne 0 [] lines).2 lines).2).length = (lines.map lineWidth).sum :=
    length_imageOf_passTwo htwo
  refine ⟨hlen, ?_, ?_⟩
  · have hle := le_of_passOne_nil (Nat.zero_le _) hone
    rw [imageWf_iff, hlen]
    omega
  · rintro before after l name rfl hl
    refine ⟨?_, _, findSymbol_passOne hl hone, Nat.zero_add _⟩
    obtain ⟨front, instrs, back, hfront, hresolve, himage⟩ := imageOf_passTwo_at_line m htwo
    obtain ⟨own, rfl, -⟩ := resolveLine_ok hresolve
    rw [himage, ← hfront, List.getElem?_append_right (Nat.le_refl _), Nat.sub_self, imageOf_append, imageOf_nops, hl]
    rfl

/-- Settles O60: behind the front and the label's NOP stand the bytes of the line's instruction, which decode to it; its row
and its fields are the ones the line spells. -/
theorem assembledInstructionsDecode : Obligations.AssembledInstructionsDecode := by
  rintro m hm lines image h before after l ai rfl hl
  obtain ⟨-, -, htwo, rfl⟩ := assembleLines_ok h
  obtain ⟨front, instrs, back, hfront, hresolve, himage⟩ := imageOf_passTwo_at_line m htwo
  obtain ⟨own, rfl, ⟨hnone, -⟩ | ⟨ai', i, hai, hi, rfl⟩⟩ := resolveLine_ok hresolve
  · cases hl.symm.trans hnone
  · obtain rfl : ai = ai' := Option.some.inj (hl.symm.trans hai)
    obtain ⟨hrow, hnumbers⟩ := resolveInstr_ok hi
    obtain ⟨hmnemonic, hforms⟩ := mnemonic_form_of_opOfForms hrow
    have hdrop : (imageOf m (passTwo (passOne 0 [] (before ++ l :: after)).2 (before ++ l :: after)).2).drop
        ((before.map lineWidth).sum + labelWidth l.label) = encodeWith m i ++ back := by
      rw [himage, imageOf_append, imageOf_nops, imageOf_singleton, List.append_assoc, ← List.append_assoc front]
      exact List.drop_left' (by rw [List.length_append, hfront, List.length_replicate])
    exact ⟨i, back, hi, hmnemonic, hforms, standsFor_of_operandNumbers hnumbers,
      hdrop ▸ decodeEncodeRoundTrip m hm i back⟩

end Sys2Proof.Machine
end
